-- ==== Sys2Proof/Word.lean ====
section
/-!
DEFINITION. The word types of the block. Bits are numbered from 0 at the least significant bit and every
value is unsigned (spec/00_scope.md R6, R7).
-/

namespace Sys2Proof

/-- One byte, the spec's u8. -/
abbrev Byte := BitVec 8

/-- One bus word, the spec's u32 (R5: the bus data width is 32 bits). -/
abbrev Word := BitVec 32

/-- A 64-bit quantity, the spec's u64: the header word and the total length operand. -/
abbrev DWord := BitVec 64

/-- A byte offset inside the register window of 0x40 bytes (R25: 0 ≤ off < 0x40). -/
abbrev Offset := BitVec 6

end Sys2Proof
end

