-- ==== Sys2Proof/Config.lean ====
section
/-!
DEFINITION. What the spec leaves to the platform: the open parameters BASE and CMD_LATENCY
(spec/00_scope.md R5, 20_memory.md R25), taken as arguments, and the one free value of the model.
-/

namespace Sys2Proof

/-- The parameters a model takes as arguments (R5). `base` is the block's base address; `cmdLatency` is the time a
command holds the bus, which no rule reads (R114) and no definition of the model either. -/
structure Params where
  base : Nat
  cmdLatency : Nat
deriving DecidableEq, Repr

/-- `BASE` is a multiple of 0x40 (R5, R25). -/
abbrev Params.wf (p : Params) : Prop := p.base % 0x40 = 0

/-- FREE VALUE (log entry 3). What state element `i` of R10's table holds after power came back for the `n`-th time
and before the next reset: R109 says that state is not specified. No body: nothing can be proved of it. -/
opaque Config.powerUpValue : (n i : Nat) → DWord

end Sys2Proof
end

