-- ==== Sys2Proof/Machine/Bits.lean ====
section
/-!
DEFINITION. Bit fields, the two halves of a 64-bit quantity, and byte order: the block is little-endian
(spec/20_memory.md R30) and so is the wire (spec/30_encoding.md R49, R51; 43_host_procedures.md R78).
-/

namespace Sys2Proof

/-- `v[31:0]` of a 64-bit quantity (spec/10_state.md R17, R19). -/
def loHalf (v : DWord) : Word := v.extractLsb' 0 32

/-- `v[63:32]` of a 64-bit quantity. -/
def hiHalf (v : DWord) : Word := v.extractLsb' 32 32

/-- `v[31:0] <- w`: the other half stays (spec/20_memory.md R32, R33). -/
def withLoHalf (v : DWord) (w : Word) : DWord := hiHalf v ++ w

/-- `v[63:32] <- w`: the other half stays. -/
def withHiHalf (v : DWord) (w : Word) : DWord := w ++ loHalf v

/-- Byte lane `k` of a 32-bit value, `v[8k+7:8k]` (R30). -/
def byteOfWord (v : Word) (k : Nat) : Byte := v.extractLsb' (8 * k) 8

/-- Byte `k` of a 64-bit value, `v[8k+7:8k]` (R49). -/
def byteOfDWord (v : DWord) (k : Nat) : Byte := v.extractLsb' (8 * k) 8

/-- `bytes32(c)`, the four bytes of a word, low byte first (R51, R78). -/
def bytes32 (c : Word) : List Byte :=
  [byteOfWord c 0, byteOfWord c 1, byteOfWord c 2, byteOfWord c 3]

/-- `bytes64(w)`, the eight bytes of a header word in wire order (R49, R78). -/
def bytes64 (w : DWord) : List Byte :=
  [byteOfDWord w 0, byteOfDWord w 1, byteOfDWord w 2, byteOfDWord w 3,
   byteOfDWord w 4, byteOfDWord w 5, byteOfDWord w 6, byteOfDWord w 7]

/-- The number a little-endian list of bytes stands for, `Σ_k b_k << 8k` (R78). -/
def leNat : List Byte → Nat
  | [] => 0
  | b :: bs => b.toNat + 256 * leNat bs

/-- `le32` of the bytes of a buffer (R78). -/
def le32 (bs : List Byte) : Word := BitVec.ofNat 32 (leNat bs)

/-- `le64` of the bytes of a buffer (R78). -/
def le64 (bs : List Byte) : DWord := BitVec.ofNat 64 (leNat bs)

/-- `buf[a, b)`, the bytes `a` to `b − 1` of a buffer (spec/00_scope.md R8). -/
def slice (buf : List Byte) (a b : Nat) : List Byte := (buf.drop a).take (b - a)

end Sys2Proof
end

