-- ==== Sys2Proof/Machine/Constants.lean ====
section
/-!
DEFINITION. The fixed parameters of spec/00_scope.md R5, and the opcodes of spec/30_encoding.md R44.
-/

namespace Sys2Proof

/-- LEN_MAX, the largest total_length: 2^45 − 1 (R5). -/
def Const.lenMax : Nat := 0x1FFFFFFFFFFF

/-- CRC_POLY, the reflected polynomial (R5, spec/40_crc.md R56). -/
def Const.crcPoly : Word := 0xEDB88320#32

/-- CRC_INIT_VALUE (R5, R59). -/
def Const.crcInitValue : Word := 0xFFFFFFFF#32

/-- PVER_RESET, the source's "fixed at 1 by default" (R5, R14). -/
def Const.pverReset : BitVec 4 := 1#4

/-- MIN_PACKET, header and trailer without payload (R5). -/
def Const.minPacket : Nat := 12

/-- WINDOW, the size of the register window in bytes (R5, R25). -/
def Const.window : Nat := 0x40

/-! The opcodes (R44). Every other value of OP is unassigned. -/

def Const.opCrcInit : Byte := 0x01#8
def Const.opCrcByte : Byte := 0x02#8
def Const.opCrcWord : Byte := 0x03#8
def Const.opCrcHdr : Byte := 0x04#8
def Const.opHdrPack : Byte := 0x10#8
def Const.opHdrPackCfg : Byte := 0x11#8
def Const.opHdrUnpack : Byte := 0x12#8
def Const.opSetPver : Byte := 0x20#8
def Const.opClrStatus : Byte := 0x30#8

end Sys2Proof
end

