-- ==== Sys2Proof/Machine/Bus.lean ====
section
/-!
DEFINITION. The bus: the register map (spec/10_state.md R11), accesses and responses (spec/20_memory.md R26),
which accesses the block serves (R27, R28, R29), and the events that reach the block.
-/

namespace Sys2Proof

/-- The fourteen registers of the window (R11). -/
inductive Reg where
  | cmd | status | cfg | data | hdrLo | hdrHi | fVer | fFrag | fLenLo | fLenHi | fType | fUser | crcState | crcResult
deriving DecidableEq, Repr

/-- The byte offset of a register from BASE (R11). -/
def Reg.offset : Reg → Offset
  | .cmd => 0x00#6
  | .status => 0x04#6
  | .cfg => 0x08#6
  | .data => 0x0C#6
  | .hdrLo => 0x10#6
  | .hdrHi => 0x14#6
  | .fVer => 0x18#6
  | .fFrag => 0x1C#6
  | .fLenLo => 0x20#6
  | .fLenHi => 0x24#6
  | .fType => 0x28#6
  | .fUser => 0x2C#6
  | .crcState => 0x30#6
  | .crcResult => 0x34#6

/-- The register at a byte offset; none at an offset that is not a multiple of 4 and at the holes 0x38 and 0x3C
(R11, R28, R29). -/
def regAt (off : Offset) : Option Reg :=
  match off.toNat with
  | 0x00 => some .cmd
  | 0x04 => some .status
  | 0x08 => some .cfg
  | 0x0C => some .data
  | 0x10 => some .hdrLo
  | 0x14 => some .hdrHi
  | 0x18 => some .fVer
  | 0x1C => some .fFrag
  | 0x20 => some .fLenLo
  | 0x24 => some .fLenHi
  | 0x28 => some .fType
  | 0x2C => some .fUser
  | 0x30 => some .crcState
  | 0x34 => some .crcResult
  | _ => none

/-- `off = address − BASE` for an address in the window; an address outside it is not the block's (R25). -/
def Params.offsetOf (p : Params) (addr : Nat) : Option Offset :=
  if p.base ≤ addr ∧ addr < p.base + Const.window then some (BitVec.ofNat 6 (addr - p.base)) else none

/-- The kind of an access; a write carries its u32 (R26). -/
inductive AccessKind where
  | read
  | write (wdata : Word)
deriving DecidableEq, Repr

/-- A bus access, the tuple (kind, off, size, wdata) of R26. `size` is in bytes: any number, since R27 says what an
access of any size does. -/
structure Access where
  kind : AccessKind
  off : Offset
  size : Nat
deriving DecidableEq, Repr

/-- The register an access of this size at this offset reaches, by the first three lines of `access` (R29): none where
the block answers with BusError. -/
def servedReg (off : Offset) (size : Nat) : Option Reg :=
  if size ≠ 4 then none
  else if off.toNat % 4 ≠ 0 then none
  else regAt off

/-- The response to an access (R26): OK for a write, OK with `rdata` for a read, or the error response of
`raise BusError(off)`, which carries no data (spec/60_exceptions.md R98). -/
inductive Response where
  | done
  | data (rdata : Word)
  | busError (off : Offset)
deriving DecidableEq, Repr

/-- What can reach the block from outside, one after the other (R35). -/
inductive Event where
  /-- A bus access of some master; the block does not see which (spec/60_exceptions.md R104). -/
  | access (a : Access)
  /-- The reset input; `held` is the access that was held when the reset arrived, if one was: it is lost
  (spec/70_reset_and_hazards.md R110, log entry 4). It takes effect at its place in the order (log entry 18). -/
  | reset (held : Option Access)
  /-- Power is removed and comes back (spec/70_reset_and_hazards.md R109, R112, log entry 3); it carries no held access
  (log entry 17). -/
  | powerLoss
deriving DecidableEq, Repr

end Sys2Proof
end

