-- ==== Sys2Proof/Machine/OpcodeTable.lean ====
section
/-!
DEFINITION. The nine command rows of spec/opcode_table.json as masks and matches. The decoder follows the case list of
spec/30_encoding.md R46 instead; that the two agree is a claim.
-/

namespace Sys2Proof

/-- One row: a word belongs to it when its bits under `mask` are `value`. -/
structure OpRow where
  mnemonic : String
  mask : Word
  value : Word
deriving DecidableEq, Repr

def OpRow.hit (r : OpRow) (cmd : Word) : Bool := cmd &&& r.mask == r.value

/-- The rows of spec/opcode_table.json with a match and a mask, in the table's order. -/
def opRows : List OpRow :=
  [⟨"CRC_INIT", 0xFFFFFFFF#32, 0x00000001#32⟩,
   ⟨"CRC_BYTE", 0xFFFF00FF#32, 0x00000002#32⟩,
   ⟨"CRC_WORD", 0xFFFFFFFF#32, 0x00000003#32⟩,
   ⟨"CRC_HDR", 0xFFFFFFFF#32, 0x00000004#32⟩,
   ⟨"HDR_PACK", 0xFFFFFFFF#32, 0x00000010#32⟩,
   ⟨"HDR_PACK_CFG", 0xFFFFFFFF#32, 0x00000011#32⟩,
   ⟨"HDR_UNPACK", 0xFFFFFFFF#32, 0x00000012#32⟩,
   ⟨"SET_PVER", 0x000000FF#32, 0x00000020#32⟩,
   ⟨"CLR_STATUS", 0xFFFFFFFF#32, 0x00000030#32⟩]

/-- Some command row takes the word. -/
def isCommandWord (cmd : Word) : Bool := opRows.any (·.hit cmd)

end Sys2Proof
end

