-- ==== Sys2Proof/Syntax.lean ====
section
/-!
DEFINITION. The instructions: one constructor for each of the twelve rows of spec/opcode_table.json.
-/

namespace Sys2Proof

/-- What the block can be told to do: the nine commands and the illegal word (format CMD: a word written to the
register CMD, spec/30_encoding.md R42 to R47), and the two bus accesses (format BUS, spec/20_memory.md R26 to R32). -/
inductive Instr where
  /-- CRC_INIT, R59. -/
  | crcInit
  /-- CRC_BYTE b, R60; `b` is `cmd[15:8]` (R45). -/
  | crcByte (b : BitVec 8)
  /-- CRC_WORD, R61. -/
  | crcWord
  /-- CRC_HDR, R62. -/
  | crcHdr
  /-- HDR_PACK, R66. -/
  | hdrPack
  /-- HDR_PACK_CFG, R67. -/
  | hdrPackCfg
  /-- HDR_UNPACK, R69. -/
  | hdrUnpack
  /-- SET_PVER v, R73; `v` is `cmd[31:8]` (R45). -/
  | setPver (v : BitVec 24)
  /-- CLR_STATUS, R74. -/
  | clrStatus
  /-- (illegal), R75: the command word that is none of the nine commands. -/
  | illegal (cmd : BitVec 32)
  /-- RD, R31: a bus read of `size` bytes at byte offset `off` of the window. -/
  | rd (off : BitVec 6) (size : Nat)
  /-- WR, R32: a bus write of `size` bytes at byte offset `off`; `value` is the written word. -/
  | wr (off : BitVec 6) (size : Nat) (value : BitVec 32)
deriving DecidableEq, Repr

end Sys2Proof
end

