-- ==== Sys2Proof/WellFormed.lean ====
section
/-!
DEFINITION. Which terms of Instr are instructions as spec/opcode_table.json lists them. A term outside has its meaning
too (a read of a wrong size is answered with BusError); it is only not the canonical name of an encoding.
-/

namespace Sys2Proof

/-- The checks: RD and WR are 4-byte accesses to a mapped offset (R27, R28, R29); WR names no CMD write, since the
canonical name of a CMD write is the command it starts (spec/30_encoding.md R53, log entry 7); (illegal) carries a word
that no command row takes (R47). Every field of the other commands is legal at every value (R45). -/
def Instr.wellFormed : Instr → Bool
  | .crcInit => true
  | .crcByte _ => true
  | .crcWord => true
  | .crcHdr => true
  | .hdrPack => true
  | .hdrPackCfg => true
  | .hdrUnpack => true
  | .setPver _ => true
  | .clrStatus => true
  | .illegal cmd => !isCommandWord cmd
  | .rd off size => (servedReg off size).isSome
  | .wr off size _ => (servedReg off size).isSome && off != Reg.cmd.offset

end Sys2Proof
end

