-- ==== Sys2Proof/Decode.lean ====
section
/-!
DEFINITION. The decoder of command words and of bus accesses (spec/30_encoding.md R42 to R47), total on every input,
and the encoder written from the same rules (R45, R53).
-/

namespace Sys2Proof

/-- OP, `cmd[7:0]` (R42). -/
def cmdOp (cmd : Word) : Byte := cmd.extractLsb' 0 8

/-- IMM, `cmd[31:8]` (R42). -/
def cmdImm (cmd : Word) : BitVec 24 := cmd.extractLsb' 8 24

/-- The case "if imm != 0 then illegal() else …" of R46. -/
def ifImmZero (cmd : Word) (i : Instr) : Instr := if cmdImm cmd ≠ 0 then .illegal cmd else i

/-- `execute_command`'s choice (R46): every word is exactly one of the nine commands or illegal. -/
def decodeCommand (cmd : Word) : Instr :=
  let op := cmdOp cmd
  let imm := cmdImm cmd
  if op = Const.opCrcInit then ifImmZero cmd .crcInit
  else if op = Const.opCrcByte then
    if imm.extractLsb' 8 16 ≠ 0 then .illegal cmd else .crcByte (imm.extractLsb' 0 8)
  else if op = Const.opCrcWord then ifImmZero cmd .crcWord
  else if op = Const.opCrcHdr then ifImmZero cmd .crcHdr
  else if op = Const.opHdrPack then ifImmZero cmd .hdrPack
  else if op = Const.opHdrPackCfg then ifImmZero cmd .hdrPackCfg
  else if op = Const.opHdrUnpack then ifImmZero cmd .hdrUnpack
  else if op = Const.opSetPver then .setPver imm
  else if op = Const.opClrStatus then ifImmZero cmd .clrStatus
  else .illegal cmd

/-- What a bus access tells the block to do: a read is RD, a write of 4 bytes to CMD is the command it carries, every
other write is WR (R29, R32, R46). -/
def decode (a : Access) : Instr :=
  match a.kind with
  | .read => .rd a.off a.size
  | .write v => if a.off = Reg.cmd.offset ∧ a.size = 4 then decodeCommand v else .wr a.off a.size v

/-- Why a list of bytes is no command. -/
inductive DecodeError where
  /-- The bytes are not the four of one command word: every command is exactly one 32-bit word (R43). -/
  | notOneCommandWord (nBytes : Nat)
deriving DecidableEq, Repr

/-- The command in the four bytes of a CMD write, lowest address first (R30, R43); total on any bytes. -/
def decodeBytes (bs : List Byte) : Except DecodeError Instr :=
  if bs.length = 4 then .ok (decodeCommand (le32 bs)) else .error (.notOneCommandWord bs.length)

/-! ## The encoder -/

/-- The word with this OP and this IMM (R42). -/
def commandWord (op : Byte) (imm : BitVec 24) : Word := imm ++ op

/-- The access that is a write of `cmd` to CMD (R53: "WR CMD, …"). -/
def cmdWrite (cmd : Word) : Access := ⟨.write cmd, Reg.cmd.offset, 4⟩

/-- The bus access that is the instruction: for a command the CMD write of its word (R44, R45, R53). -/
def encode : Instr → Access
  | .crcInit => cmdWrite (commandWord Const.opCrcInit 0)
  | .crcByte b => cmdWrite (commandWord Const.opCrcByte (0#16 ++ b))
  | .crcWord => cmdWrite (commandWord Const.opCrcWord 0)
  | .crcHdr => cmdWrite (commandWord Const.opCrcHdr 0)
  | .hdrPack => cmdWrite (commandWord Const.opHdrPack 0)
  | .hdrPackCfg => cmdWrite (commandWord Const.opHdrPackCfg 0)
  | .hdrUnpack => cmdWrite (commandWord Const.opHdrUnpack 0)
  | .setPver v => cmdWrite (commandWord Const.opSetPver v)
  | .clrStatus => cmdWrite (commandWord Const.opClrStatus 0)
  | .illegal cmd => cmdWrite cmd
  | .rd off size => ⟨.read, off, size⟩
  | .wr off size value => ⟨.write value, off, size⟩

/-! ## The opcode table's own numbering of bits -/

/-- The four bytes, lowest address first, of the command word whose low `nbits` bits are `w` and whose other bits
are 0. -/
def tableBytes (nbits w : Nat) : List Byte := bytes32 (BitVec.ofNat 32 (w % 2 ^ nbits))

/-- What the decoder reads from an instruction of the opcode table given by its bits. The rows RD and WR give no bits:
they are bus accesses, not words, so there is nothing to decode for them (log entry 9). -/
def decodeTableWord (nbits w : Nat) : Option Instr :=
  if nbits = 0 ∨ 32 < nbits then none
  else
    match decodeBytes (tableBytes nbits w) with
    | .ok i => some i
    | .error _ => none

end Sys2Proof
end

