-- ==== Sys2Proof/Machine/State.lean ====
section
/-!
DEFINITION. The state of the block, the reasons a step can stop, and the state after reset
(spec/10_state.md R10, spec/70_reset_and_hazards.md R108).
-/

namespace Sys2Proof.Machine

/-- The architectural state of the block: exactly the thirteen elements of R10, in its order and at its widths. -/
structure Block where
  /-- CRC_STATE, the CRC accumulator (R20). -/
  crc : BitVec 32
  /-- CFG.PVER, the configured protocol version (R14). -/
  pver : BitVec 4
  /-- STATUS.LAST, the result kind of the most recent command (R13). -/
  last : BitVec 2
  /-- STATUS.INV, sticky (R13). -/
  inv : BitVec 1
  /-- STATUS.ILL, sticky (R13). -/
  ill : BitVec 1
  /-- STATUS.ARGERR, the failed range checks of the most recent command (R13). -/
  argerr : BitVec 5
  /-- DATA (R16). -/
  data : BitVec 32
  /-- {HDR_HI, HDR_LO} (R17). -/
  hdr : BitVec 64
  /-- F_VER (R18). -/
  fVer : BitVec 32
  /-- F_FRAG (R18). -/
  fFrag : BitVec 32
  /-- {F_LEN_HI, F_LEN_LO} (R19). -/
  fLen : BitVec 64
  /-- F_TYPE (R18). -/
  fType : BitVec 32
  /-- F_USER (R18). -/
  fUser : BitVec 32
deriving DecidableEq, Repr

/-- The block after reset (R108, R11). -/
def Block.reset : Block where
  crc := 0xFFFFFFFF#32
  pver := 1#4
  last := 0#2
  inv := 0#1
  ill := 0#1
  argerr := 0#5
  data := 0#32
  hdr := 0#64
  fVer := 0#32
  fFrag := 0#32
  fLen := 0#64
  fType := 0#32
  fUser := 0#32

/-- The machine: the block, and the bus port it is reached through. The four fields below are the MODEL's own, not
state of the block (log entries 1 and 3). -/
structure State extends Block where
  /-- The events that have arrived and are not yet served, oldest first (R35). -/
  port : List Event
  /-- The response to the access served last, if the last event got one (R26, R98, R110). -/
  resp : Option Response
  /-- Reset has been applied since power came on (R109, R112). -/
  wasReset : Bool
  /-- How many times power was lost: the counter the free value `Config.powerUpValue` is applied to. -/
  powerUps : Nat
deriving DecidableEq, Repr

/-- The faults of the machine: there is none. The block has exactly three abnormal outcomes and none of them stops it
(spec/60_exceptions.md R96), so all three are next states. Safe: no step is cut short. -/
inductive Fault where
deriving DecidableEq, Repr

/-- The refusals of the machine. -/
inductive Refusal where
  /-- Raised by an arm of `exec` whose instruction has no meaning yet; no arm does. Safe. -/
  | notModelled (mnemonic : String)
  /-- Raised by `step` for an access that arrives before the first reset after power came on: "A bus access before the
  first reset has no meaning in this spec (a model refuses it)" (spec/70_reset_and_hazards.md R109). Safe. -/
  | accessBeforeReset
deriving DecidableEq, Repr

/-- The machine right after reset: the block of R108, nothing waiting at the port (log entry 1). -/
def State.reset : State where
  toBlock := Block.reset
  port := []
  resp := none
  wasReset := true
  powerUps := 0

end Sys2Proof.Machine
end

