-- ==== Sys2Proof/Machine/Flags.lean ====
section
/-!
DEFINITION. The STATUS register: how a command's result is reported (spec/60_exceptions.md R97, R101) and how the
register reads (spec/20_memory.md R31). `Block.report` is the one operation that stands where another machine takes an
exception: the block has no trap entry (R102).
-/

namespace Sys2Proof.Machine

/-- The result kinds of a command (R97). -/
inductive ResultKind where
  | ok
  | invalidArgument
  | illegalCommand
deriving DecidableEq, Repr

/-- The code a result kind has in STATUS.LAST (R97, R101). -/
def lastCode : ResultKind → BitVec 2
  | .ok => 0#2
  | .invalidArgument => 1#2
  | .illegalCommand => 2#2

/-- `report K(m)` (R101): LAST and ARGERR describe this command, INV and ILL accumulate. -/
def Block.report (k : ResultKind) (m : BitVec 5) (b : Block) : Block :=
  { b with
    last := lastCode k
    argerr := m
    inv := if k = .invalidArgument then 1#1 else b.inv
    ill := if k = .illegalCommand then 1#1 else b.ill }

/-- What CLR_STATUS does before its report (R74). -/
def Block.clearSticky (b : Block) : Block := { b with inv := 0#1, ill := 0#1 }

/-- The STATUS word: `{11'b0, argerr, 6'b0, ill, inv, 6'b0, last}` (R31, R13). -/
def Block.statusWord (b : Block) : Word :=
  0#11 ++ b.argerr ++ 0#6 ++ b.ill ++ b.inv ++ 0#6 ++ b.last

end Sys2Proof.Machine
end

