-- ==== Sys2Proof/Machine/Operands.lean ====
section
/-!
DEFINITION. The operand forms: the five header fields with their range checks, packing and unpacking
(spec/41_header.md R64, R65, R68; spec/30_encoding.md R48), and SET_PVER's immediate (R45).
-/

namespace Sys2Proof.Machine

/-- The five fields of a header at the widths of the operand registers (spec/10_state.md R18, R19). -/
structure Fields where
  ver : Word
  len : DWord
  frag : Word
  type : Word
  user : Word
deriving DecidableEq, Repr

/-- The operands of HDR_PACK: the F_ registers (R66). -/
def Block.fields (b : Block) : Fields := ⟨b.fVer, b.fLen, b.fFrag, b.fType, b.fUser⟩

/-- The operands of HDR_PACK_CFG: CFG.PVER stands for F_VER, which is not read (R67). -/
def Block.fieldsCfg (b : Block) : Fields :=
  ⟨b.pver.setWidth 32, b.fLen, b.fFrag, b.fType, b.fUser⟩

/-- `argcheck`, the mask of the range checks that fail: bit 0 version, 1 length, 2 fragment flag, 3 type, 4 user field
(R64). All five are evaluated. -/
def argcheck (f : Fields) : BitVec 5 :=
  BitVec.ofBool (f.user > 1023#32) ++ BitVec.ofBool (f.type > 15#32) ++ BitVec.ofBool (f.frag > 1#32)
    ++ BitVec.ofBool (f.len > 0x1FFFFFFFFFFF#64) ++ BitVec.ofBool (f.ver > 15#32)

/-- `pack`: each field ORed in at its bit offset (R65). -/
def pack (f : Fields) : DWord :=
  (f.ver.extractLsb' 0 4).setWidth 64
    ||| ((f.len.extractLsb' 0 45).setWidth 64 <<< 4)
    ||| ((f.frag.extractLsb' 0 1).setWidth 64 <<< 49)
    ||| ((f.type.extractLsb' 0 4).setWidth 64 <<< 50)
    ||| ((f.user.extractLsb' 0 10).setWidth 64 <<< 54)

/-- `unpack`: the fields of a header word, zero-extended; total (R68). -/
def unpack (w : DWord) : Fields where
  ver := (w.extractLsb' 0 4).setWidth 32
  len := (w.extractLsb' 4 45).setWidth 64
  frag := (w.extractLsb' 49 1).setWidth 32
  type := (w.extractLsb' 50 4).setWidth 32
  user := (w.extractLsb' 54 10).setWidth 32

/-- SET_PVER's operand, the immediate zero-extended (R45). -/
def pverOperand (v : BitVec 24) : Word := v.setWidth 32

end Sys2Proof.Machine
end

