-- ==== Sys2Proof/Machine/Ops.lean ====
section
/-!
DEFINITION. The named operations over the state: writing a register of the block, answering an access, reading and
writing a register over the bus (spec/20_memory.md R31, R32), reset and power loss (spec/70_reset_and_hazards.md
R108 to R112), and taking the next event from the port (R35).
-/

namespace Sys2Proof.Machine

/-! ## Writing the block's registers -/

/-- `crc <- c` (spec/10_state.md R20). -/
def Block.setCrc (c : Word) (b : Block) : Block := { b with crc := c }

/-- `pver <- v` (R14). -/
def Block.setPver (v : BitVec 4) (b : Block) : Block := { b with pver := v }

/-- `data <- v` (R16). -/
def Block.setData (v : Word) (b : Block) : Block := { b with data := v }

/-- `hdr <- w` (R17). -/
def Block.setHdr (w : DWord) (b : Block) : Block := { b with hdr := w }

/-- The five F_ registers written together, as HDR_UNPACK does (spec/41_header.md R69). -/
def Block.setFields (f : Fields) (b : Block) : Block :=
  { b with fVer := f.ver, fLen := f.len, fFrag := f.frag, fType := f.type, fUser := f.user }

/-! ## The bus port -/

/-- The access being served leaves the block as `b` and is answered with `r` (R26, R36). -/
def State.answer (b : Block) (r : Response) (s : State) : State :=
  { s with toBlock := b, resp := some r }

/-- What a read of a register returns; no read has a side effect (R31). -/
def Block.readReg (r : Reg) (b : Block) : Word :=
  match r with
  | .cmd => 0#32
  | .status => b.statusWord
  | .cfg => b.pver.setWidth 32
  | .data => b.data
  | .hdrLo => loHalf b.hdr
  | .hdrHi => hiHalf b.hdr
  | .fVer => b.fVer
  | .fFrag => b.fFrag
  | .fLenLo => loHalf b.fLen
  | .fLenHi => hiHalf b.fLen
  | .fType => b.fType
  | .fUser => b.fUser
  | .crcState => b.crc
  | .crcResult => ~~~b.crc

/-- What a write does to the storage behind a register; the read-only registers ignore it (R32). CMD has no storage:
a write to it starts a command, which `execWr` sees to. -/
def Block.writeReg (r : Reg) (v : Word) (b : Block) : Block :=
  match r with
  | .cmd => b
  | .status => b
  | .cfg => b
  | .data => b.setData v
  | .hdrLo => b.setHdr (withLoHalf b.hdr v)
  | .hdrHi => b.setHdr (withHiHalf b.hdr v)
  | .fVer => { b with fVer := v }
  | .fFrag => { b with fFrag := v }
  | .fLenLo => { b with fLen := withLoHalf b.fLen v }
  | .fLenHi => { b with fLen := withHiHalf b.fLen v }
  | .fType => { b with fType := v }
  | .fUser => { b with fUser := v }
  | .crcState => b
  | .crcResult => b

/-- The byte at an address of the window: lane `off mod 4` of the register there (R30); none in the holes. -/
def Block.byteAt (off : Offset) (b : Block) : Option Byte :=
  (regAt (off &&& 0x3C#6)).map fun r => byteOfWord (b.readReg r) (off.toNat % 4)

/-! ## Reset and power -/

/-- Reset: every state element at its reset value, whatever it was (R108). A held access gets no response (R110). -/
def State.applyReset (s : State) : State :=
  { s with toBlock := Block.reset, resp := none, wasReset := true }

/-- The block before the first reset after power came back for the `n`-th time: not specified (R109), a free value for
each element of R10's table. -/
def Block.unspecified (n : Nat) : Block where
  crc := (Config.powerUpValue n 0).setWidth 32
  pver := (Config.powerUpValue n 1).setWidth 4
  last := (Config.powerUpValue n 2).setWidth 2
  inv := (Config.powerUpValue n 3).setWidth 1
  ill := (Config.powerUpValue n 4).setWidth 1
  argerr := (Config.powerUpValue n 5).setWidth 5
  data := (Config.powerUpValue n 6).setWidth 32
  hdr := Config.powerUpValue n 7
  fVer := (Config.powerUpValue n 8).setWidth 32
  fFrag := (Config.powerUpValue n 9).setWidth 32
  fLen := Config.powerUpValue n 10
  fType := (Config.powerUpValue n 11).setWidth 32
  fUser := (Config.powerUpValue n 12).setWidth 32

/-- Power is removed: all state is lost and returns only by reset (R112, R109). DESIGN CHOICE (log entry 17): R112 says
nothing of the accesses that wait at the bus port or of one that is held; the model keeps those that wait, and an access
held at that moment stands in no list and gets no answer. -/
def State.losePower (s : State) : State :=
  { s with
    toBlock := Block.unspecified s.powerUps
    resp := none
    wasReset := false
    powerUps := s.powerUps + 1 }

/-! ## The next event -/

/-- What the oldest event at the port asks of a step. -/
inductive Arrival where
  /-- Nothing has arrived: the block waits (log entry 5). -/
  | idle
  /-- An access, decoded: run `i` on `s`. -/
  | run (i : Instr) (s : State)
  /-- A reset or a power loss, already applied. -/
  | quiet (s : State)
  /-- An access before the first reset (R109). -/
  | tooEarly
deriving DecidableEq, Repr

/-- Takes the oldest event from the port (R35). DESIGN CHOICE (log entry 18): R110 speaks of an access that runs or is
held when reset arrives, not of one that has arrived and is not begun; the model serves and answers an access that stands
in front of a reset. A reset that overtakes it is the port with the reset in front. -/
def State.arrival (s : State) : Arrival :=
  match s.port with
  | [] => .idle
  | .access a :: rest =>
    if s.wasReset then .run (decode a) { s with port := rest } else .tooEarly
  | .reset _ :: rest => .quiet { s with port := rest }.applyReset
  | .powerLoss :: rest => .quiet { s with port := rest }.losePower

/-- The state in which a write of `cmd` to CMD is the next access served, on a block that has been reset
(log entry 6). -/
def State.offerCommand (s : State) (cmd : Word) : State :=
  { s with port := .access (cmdWrite cmd) :: s.port, wasReset := true }

end Sys2Proof.Machine
end

