-- ==== Sys2Proof/Machine/Control.lean ====
section
/-!
DEFINITION. The control commands and the illegal word (spec/42_control.md).
-/

namespace Sys2Proof.Machine

/-- SET_PVER v (R73). -/
def execSetPver (v : BitVec 24) (s : State) : Host.Outcome State Fault Refusal :=
  let b :=
    if pverOperand v > 15#32 then s.toBlock.report .invalidArgument 0b00001#5
    else (s.toBlock.setPver ((pverOperand v).extractLsb' 0 4)).report .ok 0
  .next (s.answer b .done)

/-- CLR_STATUS (R74). -/
def execClrStatus (s : State) : Host.Outcome State Fault Refusal :=
  .next (s.answer (s.toBlock.clearSticky.report .ok 0) .done)

/-- `illegal()` (R75): the word is not looked at, and the CMD write gets an OK response (spec/60_exceptions.md R97). -/
def execIllegal (_cmd : Word) (s : State) : Host.Outcome State Fault Refusal :=
  .next (s.answer (s.toBlock.report .illegalCommand 0) .done)

end Sys2Proof.Machine
end

