-- ==== Sys2Proof/Machine/Crc.lean ====
section
/-!
DEFINITION. The CRC unit (spec/40_crc.md): the step functions R56 to R58 and the commands R59 to R62.
-/

namespace Sys2Proof.Machine

/-- One bit step of the reflected CRC-32 (R56). -/
def crcBit (c : Word) (d : Bool) : Word :=
  let t := c.getLsbD 0 ^^ d
  let c' := c >>> 1
  if t then c' ^^^ Const.crcPoly else c'

/-- One byte step, the least significant bit first (R57). -/
def crcByte (c : Word) (b : Byte) : Word :=
  [0, 1, 2, 3, 4, 5, 6, 7].foldl (fun c i => crcBit c (b.getLsbD i)) c

/-- The accumulator after a sequence of bytes, in increasing index order (R58). -/
def crcBytes (c : Word) (bs : List Byte) : Word := bs.foldl crcByte c

/-- `CRC32(B)` (R58). -/
def crc32 (bs : List Byte) : Word := ~~~(crcBytes Const.crcInitValue bs)

/-- CRC_INIT (R59). -/
def execCrcInit (s : State) : Host.Outcome State Fault Refusal :=
  .next (s.answer ((s.toBlock.setCrc Const.crcInitValue).report .ok 0) .done)

/-- CRC_BYTE b (R60). -/
def execCrcByte (b : Byte) (s : State) : Host.Outcome State Fault Refusal :=
  .next (s.answer ((s.toBlock.setCrc (crcByte s.crc b)).report .ok 0) .done)

/-- CRC_WORD (R61): the four bytes of DATA, low byte first. -/
def execCrcWord (s : State) : Host.Outcome State Fault Refusal :=
  .next (s.answer ((s.toBlock.setCrc (crcBytes s.crc (bytes32 s.data))).report .ok 0) .done)

/-- CRC_HDR (R62): the eight bytes of the header word in wire order. -/
def execCrcHdr (s : State) : Host.Outcome State Fault Refusal :=
  .next (s.answer ((s.toBlock.setCrc (crcBytes s.crc (bytes64 s.hdr))).report .ok 0) .done)

end Sys2Proof.Machine
end

