-- ==== Sys2Proof/Machine/Header.lean ====
section
/-!
DEFINITION. The header unit (spec/41_header.md): HDR_PACK, HDR_PACK_CFG, HDR_UNPACK.
-/

namespace Sys2Proof.Machine

/-- What a pack command does with its operands: `hdr <- pack(…)` when every range check passes, else
INVALID_ARGUMENT with the mask and hdr unchanged (R66, R67). -/
def Block.packFields (f : Fields) (b : Block) : Block :=
  if argcheck f ≠ 0 then b.report .invalidArgument (argcheck f)
  else (b.setHdr (pack f)).report .ok 0

/-- HDR_PACK (R66): the version from F_VER. -/
def execHdrPack (s : State) : Host.Outcome State Fault Refusal :=
  .next (s.answer (s.toBlock.packFields s.toBlock.fields) .done)

/-- HDR_PACK_CFG (R67): the version from CFG.PVER. -/
def execHdrPackCfg (s : State) : Host.Outcome State Fault Refusal :=
  .next (s.answer (s.toBlock.packFields s.toBlock.fieldsCfg) .done)

/-- HDR_UNPACK (R69). -/
def execHdrUnpack (s : State) : Host.Outcome State Fault Refusal :=
  .next (s.answer ((s.toBlock.setFields (unpack s.hdr)).report .ok 0) .done)

end Sys2Proof.Machine
end

