-- ==== Sys2Proof/Machine/BusAccess.lean ====
section
/-!
DEFINITION. The bus accesses RD and WR (spec/20_memory.md R26 to R32) and the dispatch of a command word
(spec/30_encoding.md R46).
-/

namespace Sys2Proof.Machine

/-- `execute_command(cmd)` (R46): the meaning of the command the word decodes to. A command word never decodes to a bus
access (`decodeCommand_not_access`), so the last two cases are never taken. -/
def executeCommand (cmd : Word) (s : State) : Host.Outcome State Fault Refusal :=
  match decodeCommand cmd with
  | .crcInit => execCrcInit s
  | .crcByte b => execCrcByte b s
  | .crcWord => execCrcWord s
  | .crcHdr => execCrcHdr s
  | .hdrPack => execHdrPack s
  | .hdrPackCfg => execHdrPackCfg s
  | .hdrUnpack => execHdrUnpack s
  | .setPver v => execSetPver v s
  | .clrStatus => execClrStatus s
  | .illegal w => execIllegal w s
  | .rd _ _ => execIllegal cmd s
  | .wr _ _ _ => execIllegal cmd s

/-- RD (R31): the register's value, or BusError with nothing changed (R27, R28, R29, R98). -/
def execRd (off : Offset) (size : Nat) (s : State) : Host.Outcome State Fault Refusal :=
  match servedReg off size with
  | none => .next (s.answer s.toBlock (.busError off))
  | some r => .next (s.answer s.toBlock (.data (s.toBlock.readReg r)))

/-- WR (R32): the register written, the command started where it is CMD, or BusError with nothing changed. -/
def execWr (off : Offset) (size : Nat) (value : Word) (s : State) : Host.Outcome State Fault Refusal :=
  match servedReg off size with
  | none => .next (s.answer s.toBlock (.busError off))
  | some .cmd => executeCommand value s
  | some r => .next (s.answer (s.toBlock.writeReg r value) .done)

end Sys2Proof.Machine
end

