-- ==== Sys2Proof/Machine/Dispatch.lean ====
section
/-! DEFINITION. The dispatch of an instruction to its meaning, one arm per constructor. -/

namespace Sys2Proof.Machine

/-- One instruction on a state. -/
def exec (i : Instr) (s : State) : Host.Outcome State Fault Refusal :=
  match i with
  | .crcInit => Sys2Proof.Machine.execCrcInit s
  | .crcByte b => Sys2Proof.Machine.execCrcByte b s
  | .crcWord => Sys2Proof.Machine.execCrcWord s
  | .crcHdr => Sys2Proof.Machine.execCrcHdr s
  | .hdrPack => Sys2Proof.Machine.execHdrPack s
  | .hdrPackCfg => Sys2Proof.Machine.execHdrPackCfg s
  | .hdrUnpack => Sys2Proof.Machine.execHdrUnpack s
  | .setPver v => Sys2Proof.Machine.execSetPver v s
  | .clrStatus => Sys2Proof.Machine.execClrStatus s
  | .illegal cmd => Sys2Proof.Machine.execIllegal cmd s
  | .rd off size => Sys2Proof.Machine.execRd off size s
  | .wr off size value => Sys2Proof.Machine.execWr off size value s

end Sys2Proof.Machine
end

