-- ==== Sys2Proof/Machine/Step.lean ====
section
/-!
DEFINITION. One step of the machine: the oldest event at the port is served to completion (spec/20_memory.md R35, R36).
-/

namespace Sys2Proof.Machine

/-- One step. An access runs the instruction it decodes to; a reset or a power loss has its effect; with nothing at the
port the block waits; an access before the first reset is refused (spec/70_reset_and_hazards.md R109). -/
def step (s : State) : Host.Outcome State Fault Refusal :=
  match s.arrival with
  | .idle => .next s
  | .run i t => exec i t
  | .quiet t => .next t
  | .tooEarly => .refused .accessBeforeReset

/-- The state whose next step runs the command word of the opcode table with the bits `w` (log entry 6). -/
def State.withFetchWord (s : State) (nbits w : Nat) : State :=
  s.offerCommand (le32 (tableBytes nbits w))

end Sys2Proof.Machine
end

