-- ==== Sys2Proof/Machine/Assembler.lean ====
section
/-!
DEFINITION. The assembler syntax of spec/30_encoding.md R53 and the pseudo-instructions of R54: a line, the
instructions it stands for, and the reading of a line's text.
-/

namespace Sys2Proof.Machine

/-- The two register pairs that hold a 64-bit quantity (R54, spec/10_state.md R17, R19). -/
inductive Pair where
  | hdr
  | fLen
deriving DecidableEq, Repr

def Pair.lo : Pair → Reg
  | .hdr => .hdrLo
  | .fLen => .fLenLo

def Pair.hi : Pair → Reg
  | .hdr => .hdrHi
  | .fLen => .fLenHi

/-- One line (R53, R54). -/
inductive Asm where
  /-- `WR <reg>, <value>` -/
  | wr (r : Reg) (v : Word)
  /-- `RD <reg>` -/
  | rd (r : Reg)
  /-- a command mnemonic with its operand -/
  | command (i : Instr)
  /-- `WR64 <lo_reg>, <v>` -/
  | wr64 (p : Pair) (v : DWord)
  /-- `RD64 <lo_reg>` -/
  | rd64 (p : Pair)
  /-- `CRC_BYTES b0, b1, …` -/
  | crcBytes (bs : List Byte)
  /-- `CRC_WORD32 <v>` -/
  | crcWord32 (v : Word)
  /-- `FIELDS <ver>, <len>, <frag>, <type>, <user>` -/
  | fields (f : Fields)
deriving DecidableEq, Repr

/-- `WR <reg>, <value>` as an instruction. -/
def wrInstr (r : Reg) (v : Word) : Instr := .wr r.offset 4 v

/-- `RD <reg>` as an instruction. -/
def rdInstr (r : Reg) : Instr := .rd r.offset 4

/-- `WR64`, low half first (R54). -/
def wr64Instrs (p : Pair) (v : DWord) : List Instr := [wrInstr p.lo (loHalf v), wrInstr p.hi (hiHalf v)]

/-- The instructions a line stands for, in their order (R53, R54). -/
def Asm.instrs : Asm → List Instr
  | .wr r v => [wrInstr r v]
  | .rd r => [rdInstr r]
  | .command i => [i]
  | .wr64 p v => wr64Instrs p v
  | .rd64 p => [rdInstr p.lo, rdInstr p.hi]
  | .crcBytes bs => bs.map .crcByte
  | .crcWord32 v => [wrInstr .data v, .crcWord]
  | .fields f =>
    wrInstr .fVer f.ver :: wr64Instrs .fLen f.len
      ++ [wrInstr .fFrag f.frag, wrInstr .fType f.type, wrInstr .fUser f.user]

/-- The bus accesses a line stands for (R53: a command mnemonic stands for the CMD write). -/
def Asm.accesses (l : Asm) : List Access := l.instrs.map encode

/-! ## The text of a line -/

/-- The names of the registers (R11). -/
def regName : Reg → String
  | .cmd => "CMD"
  | .status => "STATUS"
  | .cfg => "CFG"
  | .data => "DATA"
  | .hdrLo => "HDR_LO"
  | .hdrHi => "HDR_HI"
  | .fVer => "F_VER"
  | .fFrag => "F_FRAG"
  | .fLenLo => "F_LEN_LO"
  | .fLenHi => "F_LEN_HI"
  | .fType => "F_TYPE"
  | .fUser => "F_USER"
  | .crcState => "CRC_STATE"
  | .crcResult => "CRC_RESULT"

def allRegs : List Reg :=
  [.cmd, .status, .cfg, .data, .hdrLo, .hdrHi, .fVer, .fFrag, .fLenLo, .fLenHi, .fType, .fUser, .crcState, .crcResult]

/-- A line as its tokens: the text cut at spaces and commas. -/
def tokens : List Char → List (List Char)
  | [] => []
  | c :: cs =>
    if c = ' ' ∨ c = ',' then [] :: tokens cs
    else
      match tokens cs with
      | [] => [[c]]
      | t :: ts => (c :: t) :: ts

/-- The value of a digit in a base. -/
def digitValue (base : Nat) (c : Char) : Option Nat :=
  let n := c.toNat
  let d :=
    if 48 ≤ n ∧ n ≤ 57 then n - 48
    else if 97 ≤ n ∧ n ≤ 102 then n - 87
    else if 65 ≤ n ∧ n ≤ 70 then n - 55
    else base
  if d < base then some d else none

/-- The number a list of digits stands for. -/
def digits (base : Nat) (acc : Nat) : List Char → Option Nat
  | [] => some acc
  | c :: cs => (digitValue base c).bind fun d => digits base (acc * base + d) cs

/-- "Numbers are decimal or `0x` hexadecimal" (R53). -/
def number : List Char → Option Nat
  | [] => none
  | '0' :: 'x' :: c :: cs => digits 16 0 (c :: cs)
  | c :: cs => digits 10 0 (c :: cs)

/-- An operand of width `w`: a number that does not fit is none (log entry 12). -/
def operand (w : Nat) (t : List Char) : Option (BitVec w) :=
  (number t).bind fun n => if n < 2 ^ w then some (BitVec.ofNat w n) else none

def regNamed (t : List Char) : Option Reg := allRegs.find? fun r => (regName r).toList == t

def pairNamed (t : List Char) : Option Pair :=
  [Pair.hdr, Pair.fLen].find? fun p => (regName p.lo).toList == t

/-- The operands of CRC_BYTES. -/
def operandBytes : List (List Char) → Option (List Byte)
  | [] => some []
  | t :: ts => (operand 8 t).bind fun b => (operandBytes ts).map (b :: ·)

/-- The commands without an operand, by mnemonic (R53). -/
def plainCommands : List (String × Instr) :=
  [("CRC_INIT", .crcInit), ("CRC_WORD", .crcWord), ("CRC_HDR", .crcHdr), ("HDR_PACK", .hdrPack),
   ("HDR_PACK_CFG", .hdrPackCfg), ("HDR_UNPACK", .hdrUnpack), ("CLR_STATUS", .clrStatus)]

/-- A mnemonic with its operands (R53, R54). -/
def asmOf (m : List Char) (ops : List (List Char)) : Option Asm :=
  match ops with
  | [] =>
    if m = "CRC_BYTES".toList then some (.crcBytes [])
    else (plainCommands.find? fun p => p.1.toList == m).map fun p => .command p.2
  | [x] =>
    if m = "RD".toList then (regNamed x).map .rd
    else if m = "RD64".toList then (pairNamed x).map .rd64
    else if m = "CRC_BYTE".toList then (operand 8 x).map fun b => .command (.crcByte b)
    else if m = "SET_PVER".toList then (operand 24 x).map fun v => .command (.setPver v)
    else if m = "CRC_WORD32".toList then (operand 32 x).map .crcWord32
    else if m = "CRC_BYTES".toList then (operandBytes [x]).map .crcBytes
    else none
  | [x, y] =>
    if m = "WR".toList then (regNamed x).bind fun r => (operand 32 y).map (.wr r)
    else if m = "WR64".toList then (pairNamed x).bind fun p => (operand 64 y).map (.wr64 p)
    else if m = "CRC_BYTES".toList then (operandBytes [x, y]).map .crcBytes
    else none
  | [x, y, z, u, v] =>
    if m = "FIELDS".toList then
      (operand 32 x).bind fun ver => (operand 64 y).bind fun len => (operand 32 z).bind fun frag =>
        (operand 32 u).bind fun type => (operand 32 v).map fun user => .fields ⟨ver, len, frag, type, user⟩
    else if m = "CRC_BYTES".toList then (operandBytes [x, y, z, u, v]).map .crcBytes
    else none
  | many => if m = "CRC_BYTES".toList then (operandBytes many).map .crcBytes else none

/-- The line with this text; none where the text is no line of R53 or R54. -/
def readLine (text : String) : Option Asm :=
  match (tokens text.toList).filter fun t => !t.isEmpty with
  | [] => none
  | m :: ops => asmOf m ops

end Sys2Proof.Machine
end

