-- ==== Sys2Proof/Machine/PacketCodec.lean ====
section
/-!
DEFINITION. The host procedures (spec/43_host_procedures.md): each as the result a conforming host must produce, and
as the reference sequence of accesses that drives the machine's step. They are software around the block
(spec/00_scope.md R3, R4), and a procedure has exclusive use of the block (R78).
-/

namespace Sys2Proof.Machine

/-! ## Results -/

/-- The five error kinds (R79). -/
inductive HostError where
  | invalidArgument
  | bufferTooSmall
  | payloadTooLarge
  | lengthMismatch
  | crcMismatch
deriving DecidableEq, Repr

/-- The code of an error kind (R79). -/
def HostError.code : HostError → Nat
  | .invalidArgument => 1
  | .bufferTooSmall => 2
  | .payloadTooLarge => 3
  | .lengthMismatch => 4
  | .crcMismatch => 5

/-- A procedure's result, `Ok(value)` or `Err(kind)` (R78). -/
inductive HostResult (α : Type) where
  | ok (v : α)
  | err (k : HostError)
deriving DecidableEq, Repr

/-- The code of a result: "Code 0 is Ok", an error has its kind's code (R79). -/
def HostResult.code {α : Type} : HostResult α → Nat
  | .ok _ => 0
  | .err k => k.code

/-- The value of a successful DECODE (R90). -/
structure Packet where
  protocolVersion : BitVec 4
  totalLength : Nat
  fragmentFlag : BitVec 1
  payloadType : BitVec 4
  userField : BitVec 10
  payload : List Byte
deriving DecidableEq, Repr

/-- COMPUTE(B) (R80). -/
def compute (bs : List Byte) : HostResult Word := .ok (crc32 bs)

/-- The effective maximum of R83; 0 means that the caller gives none (R81). -/
def effMax (maxPacketSize : Nat) : Nat :=
  if maxPacketSize = 0 then Const.lenMax else min Const.lenMax maxPacketSize

/-- The fields of the header that ENCODE writes (R84). -/
def encodeFields (v : BitVec 4) (total frag type user : Nat) : Fields :=
  ⟨v.setWidth 32, BitVec.ofNat 64 total, BitVec.ofNat 32 frag, BitVec.ofNat 32 type, BitVec.ofNat 32 user⟩

/-- The argument checks of ENCODE, and its length check after them: the error if one fails (R82, R83). -/
def encodeCheck (payload : Option (List Byte)) (frag type user maxPacketSize : Nat) : HostResult (List Byte) :=
  match payload with
  | none => .err .invalidArgument
  | some p =>
    if frag > 1 then .err .invalidArgument
    else if type > 15 then .err .invalidArgument
    else if user > 1023 then .err .invalidArgument
    else if 8 + p.length + 4 > effMax maxPacketSize then .err .payloadTooLarge
    else .ok p

/-- The packet: header, payload, trailer (R84, spec/30_encoding.md R50, R51). -/
def assemble (hdrBytes payload : List Byte) : List Byte :=
  hdrBytes ++ payload ++ bytes32 (crc32 (hdrBytes ++ payload))

/-- ENCODE (R81 to R84) with the configured protocol version `v`. An absent payload is `none` (R82, log entry 11). -/
def encodePacket (v : BitVec 4) (payload : Option (List Byte)) (frag type user maxPacketSize : Nat) :
    HostResult (List Byte) :=
  match encodeCheck payload frag type user maxPacketSize with
  | .err k => .err k
  | .ok p => .ok (assemble (bytes64 (pack (encodeFields v (8 + p.length + 4) frag type user))) p)

/-- The checks of DECODE on the header (R87, R88), given the fields and the buffer's length. -/
def decodeCheck (total len : Nat) : Option HostError :=
  if total < Const.minPacket then some .bufferTooSmall
  else if total > Const.lenMax then some .payloadTooLarge
  else if len ≠ total then some .lengthMismatch
  else none

/-- The value DECODE returns (R90). -/
def packetOf (f : Fields) (packet : List Byte) : Packet where
  protocolVersion := f.ver.setWidth 4
  totalLength := f.len.toNat
  fragmentFlag := f.frag.setWidth 1
  payloadType := f.type.setWidth 4
  userField := f.user.setWidth 10
  payload := slice packet 8 (f.len.toNat - 4)

/-- The trailing four bytes, read little-endian (R89). -/
def receivedCrc (total : Nat) (packet : List Byte) : Word := le32 (slice packet (total - 4) total)

/-- DECODE (R86 to R92): the checks in the order of R91. -/
def decodePacket (packet : List Byte) : HostResult Packet :=
  if packet.length < Const.minPacket then .err .bufferTooSmall
  else
    let f := unpack (le64 (slice packet 0 8))
    let total := f.len.toNat
    match decodeCheck total packet.length with
    | some k => .err k
    | none =>
      if receivedCrc total packet ≠ crc32 (slice packet 0 (total - 4)) then .err .crcMismatch
      else .ok (packetOf f packet)

/-! ## Driving the block -/

/-- One access served to completion, before anything else that waits at the port: its response and the state after it.
None where the machine refuses. -/
def State.serve (a : Access) (s : State) : Option (Response × State) :=
  match step { s with port := .access a :: s.port } with
  | .next t => t.resp.map fun r => (r, t)
  | .fault _ => none
  | .refused _ => none

/-- `BusRead` of a register (spec/00_scope.md R8). -/
def State.busRead (r : Reg) (s : State) : Option (Word × State) :=
  match s.serve (encode (rdInstr r)) with
  | some (.data v, t) => some (v, t)
  | _ => none

/-- `RD64`: the low register read, then the high one; the value is {hi, lo} (spec/30_encoding.md R54). -/
def State.busRead64 (p : Pair) (s : State) : Option (DWord × State) :=
  (s.busRead p.lo).bind fun (lo, t) => (t.busRead p.hi).map fun (hi, u) => (hi ++ lo, u)

/-- A list of writes and commands, each answered with OK. -/
def State.issue (is : List Instr) (s : State) : Option State :=
  match is with
  | [] => some s
  | i :: rest =>
    match s.serve (encode i) with
    | some (.done, t) => t.issue rest
    | _ => none

/-- What a line of assembler text gives back: RD the word the listing shows (spec/30_encoding.md R53), RD64 the 64-bit
value (R54), every other line nothing. -/
inductive LineValue where
  | nothing
  | word (v : Word)
  | dword (v : DWord)
deriving DecidableEq, Repr

/-- A line of writes and commands run on the block: it gives no value. -/
def State.runWrites (l : Asm) (s : State) : Option (LineValue × State) :=
  (s.issue l.instrs).map fun t => (.nothing, t)

/-- A line run on the block: its accesses, served in order, and the value it gives (R53, R54). None where the machine
refuses, or where a write or a command is not answered with OK. -/
def State.runLine (l : Asm) (s : State) : Option (LineValue × State) :=
  match l with
  | .rd r => (s.busRead r).map fun (v, t) => (.word v, t)
  | .rd64 p => (s.busRead64 p).map fun (v, t) => (.dword v, t)
  | .wr r v => s.runWrites (.wr r v)
  | .command i => s.runWrites (.command i)
  | .wr64 p v => s.runWrites (.wr64 p v)
  | .crcBytes bs => s.runWrites (.crcBytes bs)
  | .crcWord32 v => s.runWrites (.crcWord32 v)
  | .fields f => s.runWrites (.fields f)

/-- A piece of a byte stream and the commands that feed it to the CRC (spec/40_crc.md R63 item 2). -/
inductive Feed where
  | byte (b : Byte)
  | word (v : Word)
  | header (w : DWord)
deriving DecidableEq, Repr

/-- The bytes of a piece, in order. -/
def Feed.bytes : Feed → List Byte
  | .byte b => [b]
  | .word v => bytes32 v
  | .header w => bytes64 w

/-- The accesses that feed a piece. -/
def Feed.instrs : Feed → List Instr
  | .byte b => [.crcByte b]
  | .word v => (Asm.crcWord32 v).instrs
  | .header w => (Asm.wr64 .hdr w).instrs ++ [.crcHdr]

/-- CRC_INIT, then the pieces, then RD CRC_RESULT (R63 item 2). -/
def State.checksum (fs : List Feed) (s : State) : Option (Word × State) :=
  (s.issue (.crcInit :: fs.flatMap Feed.instrs)).bind fun t => t.busRead .crcResult

/-- The reference sequence of COMPUTE (R80). -/
def State.compute (bs : List Byte) (s : State) : Option (HostResult Word × State) :=
  (s.issue (.crcInit :: bs.map .crcByte)).bind fun t =>
    (t.busRead .crcResult).map fun (v, u) => (.ok v, u)

/-- The reference sequence of ENCODE (R84); on an error it issues no access (R85). -/
def State.encodePacket (payload : Option (List Byte)) (frag type user maxPacketSize : Nat) (s : State) :
    Option (HostResult (List Byte) × State) :=
  match encodeCheck payload frag type user maxPacketSize with
  | .err k => some (.err k, s)
  | .ok p =>
    (s.issue (wr64Instrs .fLen (BitVec.ofNat 64 (8 + p.length + 4))
        ++ [wrInstr .fFrag (BitVec.ofNat 32 frag), wrInstr .fType (BitVec.ofNat 32 type),
            wrInstr .fUser (BitVec.ofNat 32 user), .hdrPackCfg])).bind fun s1 =>
    (s1.busRead64 .hdr).bind fun (w, s2) =>
    (s2.issue (.crcInit :: .crcHdr :: p.map .crcByte)).bind fun s3 =>
    (s3.busRead .crcResult).map fun (c, s4) =>
      (.ok (bytes64 w ++ p ++ bytes32 c), s4)

/-- The reads that follow HDR_UNPACK in DECODE (R87). -/
def State.readFields (s : State) : Option (Fields × State) :=
  (s.busRead .fVer).bind fun (ver, s1) =>
  (s1.busRead64 .fLen).bind fun (len, s2) =>
  (s2.busRead .fFrag).bind fun (frag, s3) =>
  (s3.busRead .fType).bind fun (type, s4) =>
  (s4.busRead .fUser).map fun (user, s5) => (⟨ver, len, frag, type, user⟩, s5)

/-- The reference sequence of DECODE (R86, R87, R89). -/
def State.decodePacket (packet : List Byte) (s : State) : Option (HostResult Packet × State) :=
  if packet.length < Const.minPacket then some (.err .bufferTooSmall, s)
  else
    (s.issue [wrInstr .hdrLo (le32 (slice packet 0 4)), wrInstr .hdrHi (le32 (slice packet 4 8)), .hdrUnpack]).bind
      fun s1 =>
    s1.readFields.bind fun (f, s2) =>
    match decodeCheck f.len.toNat packet.length with
    | some k => some (.err k, s2)
    | none =>
      (s2.issue (.crcInit :: .crcHdr :: (slice packet 8 (f.len.toNat - 4)).map .crcByte)).bind fun s3 =>
      (s3.busRead .crcResult).map fun (c, s4) =>
        if receivedCrc f.len.toNat packet ≠ c then (.err .crcMismatch, s4) else (.ok (packetOf f packet), s4)

/-- SET_PROTOCOL_VERSION(v) (R93): a version above 15 is refused by the host, without an access. -/
def State.setProtocolVersion (v : Nat) (s : State) : Option (HostResult Unit × State) :=
  if v > 15 then some (.err .invalidArgument, s)
  else (s.issue [.setPver (BitVec.ofNat 24 v)]).map fun t => (.ok (), t)

/-- The other way of R93, for v ≤ 0xFFFFFF: SET_PVER v directly, then STATUS.LAST, where 1 means InvalidArgument. DESIGN
CHOICE (log entry 19): R93 gives this way for no larger v; the body then sends the low 24 bits of v, and no statement
speaks of it. -/
def State.setProtocolVersionDirect (v : Nat) (s : State) : Option (HostResult Unit × State) :=
  (s.issue [.setPver (BitVec.ofNat 24 v)]).bind fun t =>
    (t.busRead .status).map fun (st, u) =>
      (if st.extractLsb' 0 2 = 1#2 then .err .invalidArgument else .ok (), u)

end Sys2Proof.Machine
end

