-- ==== Sys2Proof/Safety.lean ====
section
/-!
DEFINITION. What counts as a good state and as a completed step, in the terms the statements use.
-/

namespace Sys2Proof

/-- The STATUS elements say one thing: LAST is never 3 (spec/10_state.md R13); ARGERR is nonzero exactly when the most
recent command reported INVALID_ARGUMENT (R13, spec/60_exceptions.md R97); the sticky bit of the most recent command's
failure is set (R101). -/
abbrev Safety.StatusConsistent (b : Machine.Block) : Prop :=
  b.last ≠ 3#2 ∧ (b.last = 1#2 ↔ b.argerr ≠ 0#5) ∧ (b.last = 1#2 → b.inv = 1#1) ∧ (b.last = 2#2 → b.ill = 1#1)

/-- The invariant of a run: from the first reset on STATUS is consistent; before it nothing is specified
(spec/70_reset_and_hazards.md R109). -/
abbrev Safety.Inv (s : Machine.State) : Prop :=
  s.wasReset = true → Safety.StatusConsistent s.toBlock

/-- The instruction is one of the four CRC commands (spec/40_crc.md). -/
def Safety.isCrcCommand : Instr → Bool
  | .crcInit => true
  | .crcByte _ => true
  | .crcWord => true
  | .crcHdr => true
  | .hdrPack => false
  | .hdrPackCfg => false
  | .hdrUnpack => false
  | .setPver _ => false
  | .clrStatus => false
  | .illegal _ => false
  | .rd _ _ => false
  | .wr _ _ _ => false

/-! ## The arithmetic of the statements, on natural numbers -/

/-- The operands of a pack command are all in range, read as natural numbers (spec/41_header.md R64). -/
abbrev Safety.InRange (ver len frag type user : Nat) : Prop :=
  ver ≤ 15 ∧ len ≤ 2 ^ 45 - 1 ∧ frag ≤ 1 ∧ type ≤ 15 ∧ user ≤ 1023

/-- The mask of R64 on natural numbers: bit 0 version, 1 length, 2 fragment flag, 3 type, 4 user field. -/
def Safety.rangeMask (ver len frag type user : Nat) : BitVec 5 :=
  BitVec.ofNat 5
    ((if 15 < ver then 1 else 0) + (if 2 ^ 45 - 1 < len then 2 else 0) + (if 1 < frag then 4 else 0)
      + (if 15 < type then 8 else 0) + (if 1023 < user then 16 else 0))

/-- The "equivalent form" of R57: the byte is exclusive-ORed in first, then eight steps look at bit 0 alone. -/
def Safety.crcShift : Nat → Word → Word
  | 0, c => c
  | n + 1, c => Safety.crcShift n (if c.getLsbD 0 then (c >>> 1) ^^^ 0xEDB88320#32 else c >>> 1)

/-- A word that `execute_command` sends to `illegal()`, by OP and IMM as natural numbers (spec/30_encoding.md R46): an
unassigned OP, or an assigned OP with a nonzero reserved IMM bit. -/
abbrev Safety.IllegalWord (cmd : Word) : Prop :=
  let op := cmd.toNat % 256
  let imm := cmd.toNat / 256
  op ∉ [0x01, 0x02, 0x03, 0x04, 0x10, 0x11, 0x12, 0x20, 0x30] ∨
  (op ∈ [0x01, 0x03, 0x04, 0x10, 0x11, 0x12, 0x30] ∧ imm ≠ 0) ∨
  (op = 0x02 ∧ imm / 256 ≠ 0)

/-- The nine operand registers (spec/10_state.md R15). -/
def Safety.operandRegs : List Reg := [.data, .hdrLo, .hdrHi, .fVer, .fFrag, .fLenLo, .fLenHi, .fType, .fUser]

/-- The total_length that a buffer's first eight bytes declare, as a number (spec/30_encoding.md R48, R49). -/
def Safety.declaredLength (packet : List Byte) : Nat := leNat (packet.take 8) / 16 % 2 ^ 45

/-- A buffer with one bit flipped: bit `i` of byte `k`. -/
def Safety.flipBit (packet : List Byte) (k i : Nat) : List Byte := packet.modify k (· ^^^ (1#8 <<< i))

end Sys2Proof
end

