-- ==== Sys2Proof/Certificates/Slice0/Obligations.lean ====
section
/-!
DEFINITION. The statements about the block for the provers. `exec i s = .next { s with … }` states a whole next state:
every field not named is unchanged, so these equations are the frames too. The block has no memory of its own beyond
its registers (spec/20_memory.md R24), so there is no byte of memory to speak of.
-/

open Sys2Proof Sys2Proof.Machine

/-! ## The CRC unit -/

/-- R56: one bit step. -/
def Obligations.CrcBitIsReflectedShiftStep : Prop :=
  ∀ (c : Word) (d : Bool),
    crcBit c d = if c.getLsbD 0 ≠ d then (c >>> 1) ^^^ 0xEDB88320#32 else c >>> 1

/-- R59. -/
def Obligations.CrcInitLoadsInitialValue : Prop :=
  ∀ s : State, exec .crcInit s = .next { s with crc := 0xFFFFFFFF#32, last := 0#2, argerr := 0#5, resp := some .done }

/-- R57, R60: the byte enters bit 0 first, and the equivalent form of R57 gives the same. -/
def Obligations.CrcByteAbsorbsByteLsbFirst : Prop :=
  ∀ (b : Byte) (s : State),
    exec (.crcByte b) s =
      .next { s with
        crc := crcBit (crcBit (crcBit (crcBit (crcBit (crcBit (crcBit (crcBit s.crc (b.getLsbD 0)) (b.getLsbD 1))
          (b.getLsbD 2)) (b.getLsbD 3)) (b.getLsbD 4)) (b.getLsbD 5)) (b.getLsbD 6)) (b.getLsbD 7)
        last := 0#2, argerr := 0#5, resp := some .done } ∧
    exec (.crcByte b) s =
      .next { s with
        crc := Safety.crcShift 8 (s.crc ^^^ b.setWidth 32)
        last := 0#2, argerr := 0#5, resp := some .done }

/-- R61: the four bytes of DATA, low byte first; and CRC_WORD is the four CRC_BYTE commands in its effect. -/
def Obligations.CrcWordAbsorbsDataLowByteFirst : Prop :=
  ∀ s : State,
    exec .crcWord s =
      .next { s with
        crc := crcByte (crcByte (crcByte (crcByte s.crc (s.data.extractLsb' 0 8)) (s.data.extractLsb' 8 8))
          (s.data.extractLsb' 16 8)) (s.data.extractLsb' 24 8)
        last := 0#2, argerr := 0#5, resp := some .done } ∧
    ∃ s1 s2 s3 s4, exec (.crcByte (s.data.extractLsb' 0 8)) s = .next s1 ∧
      exec (.crcByte (s.data.extractLsb' 8 8)) s1 = .next s2 ∧
      exec (.crcByte (s.data.extractLsb' 16 8)) s2 = .next s3 ∧
      exec (.crcByte (s.data.extractLsb' 24 8)) s3 = .next s4 ∧ exec .crcWord s = .next s4

/-- R62: the eight header bytes in wire order. -/
def Obligations.CrcHdrAbsorbsHeaderInWireOrder : Prop :=
  ∀ s : State,
    exec .crcHdr s =
      .next { s with
        crc := crcByte (crcByte (crcByte (crcByte (crcByte (crcByte (crcByte (crcByte s.crc
          (s.hdr.extractLsb' 0 8)) (s.hdr.extractLsb' 8 8)) (s.hdr.extractLsb' 16 8)) (s.hdr.extractLsb' 24 8))
          (s.hdr.extractLsb' 32 8)) (s.hdr.extractLsb' 40 8)) (s.hdr.extractLsb' 48 8)) (s.hdr.extractLsb' 56 8)
        last := 0#2, argerr := 0#5, resp := some .done }

/-- R58: the checksum of no bytes is 0, and a byte appended is one byte step on the complemented checksum. -/
def Obligations.ChecksumExtendsByteByByte : Prop :=
  crc32 [] = 0x00000000#32 ∧ ∀ (bs : List Byte) (b : Byte), crc32 (bs ++ [b]) = ~~~(crcByte (~~~(crc32 bs)) b)

/-- R63 item 2: any mix of CRC_BYTE, CRC_WORD and CRC_HDR that feeds the bytes in order gives their CRC32. -/
def Obligations.AnyMixOfFeedsGivesChecksum : Prop :=
  ∀ (fs : List Feed) (s : State), s.wasReset = true → ∃ t, s.checksum fs = some (crc32 (fs.flatMap Feed.bytes), t)

/-- R63 item 4: a CRC command completes, its crc depends on crc, DATA and hdr only, and it changes only CRC_STATE and
STATUS. -/
def Obligations.CrcCommandsShareOnlyStatus : Prop :=
  ∀ i, Safety.isCrcCommand i = true → ∀ s s' : State, s.crc = s'.crc → s.data = s'.data → s.hdr = s'.hdr →
    ∃ c, exec i s = .next { s with crc := c, last := 0#2, argerr := 0#5, resp := some .done } ∧
      exec i s' = .next { s' with crc := c, last := 0#2, argerr := 0#5, resp := some .done }

/-- R63 item 5, for every change confined to one byte, a single flipped bit among them. -/
def Obligations.OneChangedByteChangesChecksum : Prop :=
  ∀ (before after : List Byte) (b b' : Byte), b ≠ b' → crc32 (before ++ b :: after) ≠ crc32 (before ++ b' :: after)

/-! ## The header unit -/

/-- R65: the OR of the shifted fields is the concatenation and the sum, when the checks pass. -/
def Obligations.PackIsConcatenationAndSum : Prop :=
  ∀ f : Fields, argcheck f = 0#5 →
    pack f = ((f.ver.extractLsb' 0 4).setWidth 64 ||| ((f.len.extractLsb' 0 45).setWidth 64 <<< 4)
      ||| ((f.frag.extractLsb' 0 1).setWidth 64 <<< 49) ||| ((f.type.extractLsb' 0 4).setWidth 64 <<< 50)
      ||| ((f.user.extractLsb' 0 10).setWidth 64 <<< 54)) ∧
    pack f = f.user.extractLsb' 0 10 ++ f.type.extractLsb' 0 4 ++ f.frag.extractLsb' 0 1 ++ f.len.extractLsb' 0 45
      ++ f.ver.extractLsb' 0 4 ∧
    (pack f).toNat = f.ver.toNat + f.len.toNat * 2 ^ 4 + f.frag.toNat * 2 ^ 49 + f.type.toNat * 2 ^ 50
      + f.user.toNat * 2 ^ 54

/-- R64, R66. -/
def Obligations.HdrPackChecksThenPacks : Prop :=
  ∀ s : State,
    (Safety.InRange s.fVer.toNat s.fLen.toNat s.fFrag.toNat s.fType.toNat s.fUser.toNat →
      exec .hdrPack s =
        .next { s with
          hdr := BitVec.ofNat 64 (s.fVer.toNat + s.fLen.toNat * 2 ^ 4 + s.fFrag.toNat * 2 ^ 49
            + s.fType.toNat * 2 ^ 50 + s.fUser.toNat * 2 ^ 54)
          last := 0#2, argerr := 0#5, resp := some .done }) ∧
    (¬ Safety.InRange s.fVer.toNat s.fLen.toNat s.fFrag.toNat s.fType.toNat s.fUser.toNat →
      exec .hdrPack s =
        .next { s with
          last := 1#2, inv := 1#1
          argerr := Safety.rangeMask s.fVer.toNat s.fLen.toNat s.fFrag.toNat s.fType.toNat s.fUser.toNat
          resp := some .done })

/-- R67: the version comes from CFG.PVER, which is always in range; F_VER is not read. -/
def Obligations.HdrPackCfgUsesConfiguredVersion : Prop :=
  ∀ s : State,
    (Safety.InRange 0 s.fLen.toNat s.fFrag.toNat s.fType.toNat s.fUser.toNat →
      exec .hdrPackCfg s =
        .next { s with
          hdr := BitVec.ofNat 64 (s.pver.toNat + s.fLen.toNat * 2 ^ 4 + s.fFrag.toNat * 2 ^ 49
            + s.fType.toNat * 2 ^ 50 + s.fUser.toNat * 2 ^ 54)
          last := 0#2, argerr := 0#5, resp := some .done }) ∧
    (¬ Safety.InRange 0 s.fLen.toNat s.fFrag.toNat s.fType.toNat s.fUser.toNat →
      exec .hdrPackCfg s =
        .next { s with
          last := 1#2, inv := 1#1
          argerr := Safety.rangeMask 0 s.fLen.toNat s.fFrag.toNat s.fType.toNat s.fUser.toNat
          resp := some .done })

/-- R68, R69: each F_ register gets its field of hdr as a number; hdr and everything else stays. -/
def Obligations.HdrUnpackExtractsFields : Prop :=
  ∀ s : State,
    exec .hdrUnpack s =
      .next { s with
        fVer := BitVec.ofNat 32 (s.hdr.toNat % 2 ^ 4)
        fLen := BitVec.ofNat 64 (s.hdr.toNat / 2 ^ 4 % 2 ^ 45)
        fFrag := BitVec.ofNat 32 (s.hdr.toNat / 2 ^ 49 % 2)
        fType := BitVec.ofNat 32 (s.hdr.toNat / 2 ^ 50 % 2 ^ 4)
        fUser := BitVec.ofNat 32 (s.hdr.toNat / 2 ^ 54)
        last := 0#2, argerr := 0#5, resp := some .done }

/-- R70: pack and unpack are inverse to each other, on fields and as commands. -/
def Obligations.HeaderPackUnpackRoundTrip : Prop :=
  (∀ f : Fields, argcheck f = 0#5 → unpack (pack f) = f) ∧
  (∀ w : DWord, argcheck (unpack w) = 0#5 ∧ pack (unpack w) = w) ∧
  (∀ s t : State, exec .hdrPack s = .next t → t.last = 0#2 →
    ∃ u, exec .hdrUnpack t = .next u ∧ u.fVer = s.fVer ∧ u.fLen = s.fLen ∧ u.fFrag = s.fFrag ∧ u.fType = s.fType ∧
      u.fUser = s.fUser) ∧
  (∀ s : State, ∃ t u, exec .hdrUnpack s = .next t ∧ exec .hdrPack t = .next u ∧ u.last = 0#2 ∧ u.hdr = s.hdr)

/-! ## Control commands and STATUS -/

/-- R73. -/
def Obligations.SetPverChecksThenSets : Prop :=
  ∀ (v : BitVec 24) (s : State),
    (v.toNat ≤ 15 →
      exec (.setPver v) s =
        .next { s with pver := BitVec.ofNat 4 v.toNat, last := 0#2, argerr := 0#5, resp := some .done }) ∧
    (15 < v.toNat →
      exec (.setPver v) s = .next { s with last := 1#2, inv := 1#1, argerr := 0b00001#5, resp := some .done })

/-- R74: all of STATUS is cleared, and STATUS then reads 0. -/
def Obligations.ClrStatusClearsStatus : Prop :=
  ∀ s : State,
    exec .clrStatus s =
      .next { s with last := 0#2, inv := 0#1, ill := 0#1, argerr := 0#5, resp := some .done } ∧
    ∀ t, exec .clrStatus s = .next t → exec (.rd 0x04#6 4) t = .next { t with resp := some (.data 0x00000000#32) }

/-- R75: an illegal word, and every word that R46 sends to illegal, changes nothing but STATUS; the CMD write is
answered OK. -/
def Obligations.IllegalWordReportsOnly : Prop :=
  (∀ (cmd : Word) (s : State),
    exec (.illegal cmd) s = .next { s with last := 2#2, ill := 1#1, argerr := 0#5, resp := some .done }) ∧
  (∀ (cmd : Word) (s : State), Safety.IllegalWord cmd →
    exec (decodeCommand cmd) s = .next { s with last := 2#2, ill := 1#1, argerr := 0#5, resp := some .done })

/-- R13: where the STATUS fields stand in the word, and that the reserved bits read 0. -/
def Obligations.StatusWordLayout : Prop :=
  ∀ b : Block,
    b.statusWord.extractLsb' 0 2 = b.last ∧ b.statusWord.extractLsb' 2 6 = 0#6 ∧
    b.statusWord.extractLsb' 8 1 = b.inv ∧ b.statusWord.extractLsb' 9 1 = b.ill ∧
    b.statusWord.extractLsb' 10 6 = 0#6 ∧ b.statusWord.extractLsb' 16 5 = b.argerr ∧
    b.statusWord.extractLsb' 21 11 = 0#11

/-- R102: a command that reports INVALID_ARGUMENT or ILLEGAL_COMMAND has changed no register but STATUS. -/
def Obligations.FailedCommandChangesOnlyStatus : Prop :=
  ∀ (cmd : Word) (s t : State), exec (decodeCommand cmd) s = .next t → t.last ≠ 0#2 →
    t = { s with last := t.last, argerr := t.argerr, inv := t.inv, ill := t.ill, resp := some .done } ∧
    (t.last = 1#2 ∧ t.argerr ≠ 0#5 ∧ t.inv = 1#1 ∧ t.ill = s.ill ∨
      t.last = 2#2 ∧ t.argerr = 0#5 ∧ t.ill = 1#1 ∧ t.inv = s.inv)

/-! ## Encodings -/

/-- R55, with one word of each family of R44. -/
def Obligations.SpecWordsDecode : Prop :=
  decodeCommand 0x00004102#32 = .crcByte 0x41#8 ∧ decodeCommand 0x0000FF02#32 = .crcByte 0xFF#8 ∧
  decodeCommand 0x00000120#32 = .setPver 1#24 ∧ decodeCommand 0x00001020#32 = .setPver 16#24 ∧
  decodeCommand 0x00010002#32 = .illegal 0x00010002#32 ∧ decodeCommand 0x00000000#32 = .illegal 0x00000000#32 ∧
  decodeCommand 0x00000011#32 = .hdrPackCfg ∧ decodeCommand 0x00000030#32 = .clrStatus

/-- R46: the decoder sends to illegal exactly the words that no command row of the opcode table takes, and no two rows
take one word. -/
def Obligations.DecoderAgreesWithOpcodeTable : Prop :=
  ∀ cmd : Word,
    (decodeCommand cmd = .illegal cmd ↔ isCommandWord cmd = false) ∧
    (opRows.filter (·.hit cmd)).length ≤ 1

/-- R45, R46: the case list, on OP and IMM as numbers; every word falls under exactly one clause. -/
def Obligations.DecoderFollowsCaseList : Prop :=
  ∀ (cmd : Word) (op imm : Nat), op = cmd.toNat % 256 → imm = cmd.toNat / 256 →
    (op = 0x01 → imm = 0 → decodeCommand cmd = .crcInit) ∧
    (op = 0x02 → imm / 256 = 0 → decodeCommand cmd = .crcByte (BitVec.ofNat 8 imm)) ∧
    (op = 0x03 → imm = 0 → decodeCommand cmd = .crcWord) ∧
    (op = 0x04 → imm = 0 → decodeCommand cmd = .crcHdr) ∧
    (op = 0x10 → imm = 0 → decodeCommand cmd = .hdrPack) ∧
    (op = 0x11 → imm = 0 → decodeCommand cmd = .hdrPackCfg) ∧
    (op = 0x12 → imm = 0 → decodeCommand cmd = .hdrUnpack) ∧
    (op = 0x20 → decodeCommand cmd = .setPver (BitVec.ofNat 24 imm)) ∧
    (op = 0x30 → imm = 0 → decodeCommand cmd = .clrStatus) ∧
    (Safety.IllegalWord cmd → decodeCommand cmd = .illegal cmd)

/-- No bit of an encoding is dropped: every well-formed instruction is read back from its access. -/
def Obligations.DecodeEncodeIsIdentity : Prop :=
  ∀ i : Instr, i.wellFormed = true → decode (encode i) = i

/-- Every access is the encoding of what it decodes to, and what it decodes to is well-formed where the block serves
it. -/
def Obligations.EncodeDecodeIsIdentity : Prop :=
  ∀ a : Access, encode (decode a) = a ∧ (a.size = 4 → (regAt a.off).isSome = true → (decode a).wellFormed = true)

/-! ## The bus -/

/-- R31: what a read returns; it changes nothing but the response. -/
def Obligations.ReadReturnsRegister : Prop :=
  ∀ s : State, ∀ p ∈ ([
      (0x00#6, 0x00000000#32),
      (0x04#6, 0#11 ++ s.argerr ++ 0#6 ++ s.ill ++ s.inv ++ 0#6 ++ s.last),
      (0x08#6, s.pver.setWidth 32),
      (0x0C#6, s.data),
      (0x10#6, s.hdr.extractLsb' 0 32),
      (0x14#6, s.hdr.extractLsb' 32 32),
      (0x18#6, s.fVer),
      (0x1C#6, s.fFrag),
      (0x20#6, s.fLen.extractLsb' 0 32),
      (0x24#6, s.fLen.extractLsb' 32 32),
      (0x28#6, s.fType),
      (0x2C#6, s.fUser),
      (0x30#6, s.crc),
      (0x34#6, ~~~s.crc)] : List (Offset × Word)),
    exec (.rd p.1 4) s = .next { s with resp := some (.data p.2) }

/-- R32: what a write does; a write of CMD executes the command word. -/
def Obligations.WriteSetsRegister : Prop :=
  ∀ (s : State) (v : Word),
    exec (.wr 0x00#6 4 v) s = exec (decodeCommand v) s ∧
    (∀ off ∈ ([0x04#6, 0x08#6, 0x30#6, 0x34#6] : List Offset),
      exec (.wr off 4 v) s = .next { s with resp := some .done }) ∧
    exec (.wr 0x0C#6 4 v) s = .next { s with data := v, resp := some .done } ∧
    exec (.wr 0x10#6 4 v) s = .next { s with hdr := s.hdr.extractLsb' 32 32 ++ v, resp := some .done } ∧
    exec (.wr 0x14#6 4 v) s = .next { s with hdr := v ++ s.hdr.extractLsb' 0 32, resp := some .done } ∧
    exec (.wr 0x18#6 4 v) s = .next { s with fVer := v, resp := some .done } ∧
    exec (.wr 0x1C#6 4 v) s = .next { s with fFrag := v, resp := some .done } ∧
    exec (.wr 0x20#6 4 v) s = .next { s with fLen := s.fLen.extractLsb' 32 32 ++ v, resp := some .done } ∧
    exec (.wr 0x24#6 4 v) s = .next { s with fLen := v ++ s.fLen.extractLsb' 0 32, resp := some .done } ∧
    exec (.wr 0x28#6 4 v) s = .next { s with fType := v, resp := some .done } ∧
    exec (.wr 0x2C#6 4 v) s = .next { s with fUser := v, resp := some .done }

/-- R27, R28, R29, R98: an access of another size, at an offset that is no multiple of 4 or at a hole gets the error
response and changes nothing; every other read gets data and every other write is answered OK. -/
def Obligations.UnservedAccessIsBusError : Prop :=
  ∀ (off : Offset) (size : Nat) (v : Word) (s : State),
    ((size ≠ 4 ∨ off.toNat % 4 ≠ 0 ∨ off = 0x38#6 ∨ off = 0x3C#6) →
      exec (.rd off size) s = .next { s with resp := some (.busError off) } ∧
      exec (.wr off size v) s = .next { s with resp := some (.busError off) }) ∧
    (size = 4 → off.toNat % 4 = 0 → off ≠ 0x38#6 → off ≠ 0x3C#6 →
      (∃ x, exec (.rd off size) s = .next { s with resp := some (.data x) }) ∧
      (∃ t, exec (.wr off size v) s = .next t ∧ t.resp = some .done))

/-- R15: an operand register reads back all 32 bits of what was written. -/
def Obligations.OperandRegisterReadsBack : Prop :=
  ∀ r ∈ Safety.operandRegs, ∀ (v : Word) (s : State), ∃ t,
    exec (.wr r.offset 4 v) s = .next t ∧ exec (.rd r.offset 4) t = .next { t with resp := some (.data v) }

/-- R34: writing an operand register twice leaves the state of writing it once; a command is not idempotent. -/
def Obligations.OperandWritesIdempotent : Prop :=
  (∀ r ∈ Safety.operandRegs, ∀ (v : Word) (s t : State),
    exec (.wr r.offset 4 v) s = .next t → exec (.wr r.offset 4 v) t = .next t) ∧
  ∃ (b : Byte) (s t u : State), exec (.crcByte b) s = .next t ∧ exec (.crcByte b) t = .next u ∧ u ≠ t

/-- R33, R113 item 3: a command between the two writes of a pair sees one new and one old half. -/
def Obligations.HalfWrittenHeaderIsSeenMixed : Prop :=
  ∀ (s t u : State) (v : Word), exec (.wr 0x10#6 4 v) s = .next t → exec .hdrUnpack t = .next u →
    u.fVer = v.setWidth 32 &&& 0xF#32 ∧ u.fUser = s.hdr.extractLsb' 32 32 >>> 22

/-- R30: byte lane k of a register, and R17: the bytes at 0x10 to 0x17 are the header bytes in wire order. -/
def Obligations.WindowBytesAreLittleEndian : Prop :=
  (∀ (b : Block) (r : Reg) (k : Nat), k < 4 →
    b.byteAt (r.offset + BitVec.ofNat 6 k) = some ((b.readReg r).extractLsb' (8 * k) 8)) ∧
  (∀ (b : Block) (k : Nat), k < 8 →
    b.byteAt (0x10#6 + BitVec.ofNat 6 k) = some (b.hdr.extractLsb' (8 * k) 8))

/-- R25: the window is BASE to BASE + 0x3F, whatever BASE is. -/
def Obligations.AddressWindow : Prop :=
  ∀ (p : Params) (addr : Nat),
    (p.offsetOf addr = none ↔ addr < p.base ∨ p.base + 0x3F < addr) ∧
    ∀ off, p.offsetOf addr = some off ↔ addr = p.base + off.toNat

/-- R54: what each pseudo-instruction leaves and gives, on a block that has been reset (served before what waits at the
port, log entry 15): WR64, RD64 with the value {hi, lo}, CRC_BYTES, CRC_WORD32 and FIELDS. A line with no byte in
CRC_BYTES (log entry 12) issues no access. -/
def Obligations.PseudoInstructionsHaveTheirEffect : Prop :=
  ∀ s : State, s.wasReset = true →
    (∀ v, s.runLine (.wr64 .hdr v) = some (.nothing, { s with hdr := v, resp := some .done })) ∧
    (∀ v, s.runLine (.wr64 .fLen v) = some (.nothing, { s with fLen := v, resp := some .done })) ∧
    s.runLine (.rd64 .hdr) = some (.dword s.hdr, { s with resp := some (.data (s.hdr.extractLsb' 32 32)) }) ∧
    s.runLine (.rd64 .fLen) = some (.dword s.fLen, { s with resp := some (.data (s.fLen.extractLsb' 32 32)) }) ∧
    s.runLine (.crcBytes []) = some (.nothing, s) ∧
    (∀ b bs, s.runLine (.crcBytes (b :: bs)) =
      some (.nothing, { s with crc := crcBytes s.crc (b :: bs), last := 0#2, argerr := 0#5, resp := some .done })) ∧
    (∀ v, s.runLine (.crcWord32 v) =
      some (.nothing,
        { s with data := v, crc := crcBytes s.crc (bytes32 v), last := 0#2, argerr := 0#5, resp := some .done })) ∧
    (∀ f, s.runLine (.fields f) =
      some (.nothing, { s with fVer := f.ver, fLen := f.len, fFrag := f.frag, fType := f.type, fUser := f.user,
                               resp := some .done }))

/-! ## Steps, reset and power -/

/-- R35, R36: a step serves the oldest access; it is exec of the instruction the access decodes to, with the access
taken from the port. -/
def Obligations.StepRunsDecodedAccess : Prop :=
  (∀ (s : State) (a : Access) (rest : List Event), s.port = .access a :: rest → s.wasReset = true →
    step s = exec (decode a) { s with port := rest }) ∧
  (∀ (s : State) (i : Instr) (rest : List Event), i.wellFormed = true → s.port = .access (encode i) :: rest →
    s.wasReset = true → step s = exec i { s with port := rest })

/-- R108: reset sets every element, whatever was before; then what the registers read. R110, as the model takes it: a
held access is lost and unanswered (`resp := none`, log entry 4), and the events behind the reset stay at the port, which
with `resp` is the model's own (log entry 1). -/
def Obligations.ResetSetsEveryElement : Prop :=
  ∀ (s : State) (held : Option Access) (rest : List Event), s.port = .reset held :: rest →
    ∃ t : State, step s = .next t ∧
      t = { crc := 0xFFFFFFFF#32, pver := 1#4, last := 0#2, inv := 0#1, ill := 0#1, argerr := 0#5, data := 0#32,
            hdr := 0#64, fVer := 0#32, fFrag := 0#32, fLen := 0#64, fType := 0#32, fUser := 0#32,
            port := rest, resp := none, wasReset := true, powerUps := s.powerUps } ∧
      ∀ p ∈ ([(0x04#6, 0x00000000#32), (0x08#6, 0x00000001#32), (0x0C#6, 0x00000000#32), (0x10#6, 0x00000000#32),
          (0x14#6, 0x00000000#32), (0x18#6, 0x00000000#32), (0x1C#6, 0x00000000#32), (0x20#6, 0x00000000#32),
          (0x24#6, 0x00000000#32), (0x28#6, 0x00000000#32), (0x2C#6, 0x00000000#32), (0x30#6, 0xFFFFFFFF#32),
          (0x34#6, 0x00000000#32)] : List (Offset × Word)),
        exec (.rd p.1 4) t = .next { t with resp := some (.data p.2) }

/-- R109: an access before the first reset is refused, and the machine starts in the state of R108, which is the state a
reset leaves. The model's choices in it: the empty port of State.reset and its answer (log entry 1), and the fields
wasReset, true after a reset, and powerUps, which a reset keeps (log entry 3). -/
def Obligations.AccessBeforeResetIsRefused : Prop :=
  (∀ (s : State) (a : Access) (rest : List Event), s.port = .access a :: rest → s.wasReset = false →
    step s = .refused .accessBeforeReset) ∧
  State.reset.wasReset = true ∧ State.reset.port = [] ∧
  ∀ (s : State) (held : Option Access), s.port = [.reset held] →
    step s = .next { State.reset with powerUps := s.powerUps }

/-- R112: removal of power loses all state; every access is refused until a reset, after which the block is as R108
says. The event powerLoss is the model's (log entry 3), and so is that what waits at the port is kept over it, `t.port =
rest` (log entry 17). -/
def Obligations.PowerLossNeedsReset : Prop :=
  ∀ (s : State) (rest : List Event), s.port = .powerLoss :: rest →
    ∃ t, step s = .next t ∧ t.port = rest ∧
      (∀ a tail, rest = .access a :: tail → step t = .refused .accessBeforeReset) ∧
      (∀ held tail, rest = .reset held :: tail → ∃ u, step t = .next u ∧ u.toBlock = Block.reset ∧ u.wasReset = true)

/-- The model's choice (log entry 5): with nothing at the port a step changes nothing. -/
def Obligations.IdleStepWaits : Prop :=
  ∀ s : State, s.port = [] → step s = .next s

/-- Log entry 6: the word offered by withFetchWord is the one the next step runs. -/
def Obligations.OfferedWordRunsNext : Prop :=
  ∀ (s : State) (w : Nat), w < 2 ^ 32 →
    step (s.withFetchWord 32 w) = exec (decodeCommand (BitVec.ofNat 32 w)) { s with wasReset := true }

/-- R96: every instruction completes, in every state, with every operand; the access is answered, and what waits at the
port stays. -/
def Obligations.EveryInstructionCompletes : Prop :=
  ∀ (i : Instr) (s : State), ∃ t, exec i s = .next t ∧ t.resp.isSome = true ∧ t.port = s.port ∧
    t.wasReset = s.wasReset ∧ t.powerUps = s.powerUps

/-- R35, R36: arrivals are served one at a time, in order, each to completion: after as many steps as there were
arrivals before them, exactly the later arrivals wait. A reset among them takes effect at its place in the order (log
entry 18). -/
def Obligations.ArrivalsServedInOrder : Prop :=
  ∀ (first later : List Event) (s : State), s.port = first ++ later → s.wasReset = true → Event.powerLoss ∉ first →
    ∃ t, Host.Core.run core first.length s = .next t ∧ t.port = later ∧ t.wasReset = true

/-! ## Invariants and whole-machine rules -/

/-- The invariant holds right after reset. -/
def Obligations.StatusInvariantAtReset : Prop :=
  Safety.Inv State.reset ∧ State.reset.wasReset = true

/-- R13, R97, R101: every step keeps STATUS consistent: LAST is never 3, ARGERR is nonzero exactly after an
INVALID_ARGUMENT, and the sticky bit of the last failure is set. -/
def Obligations.EveryStepKeepsStatusInvariant : Prop :=
  ∀ s t : State, Safety.Inv s → step s = .next t → Safety.Inv t

/-- R14: "PVER changes only by the command SET_PVER … and by reset" (and is lost with power, R112). -/
def Obligations.PverChangesOnlyBySetPverOrReset : Prop :=
  ∀ s t : State, step s = .next t → t.pver ≠ s.pver →
    (∃ a rest v, s.port = .access a :: rest ∧ decode a = .setPver v ∧ v.toNat ≤ 15 ∧ t.pver = BitVec.ofNat 4 v.toNat) ∨
    (∃ held rest, s.port = .reset held :: rest ∧ t.pver = 1#4) ∨ (∃ rest, s.port = .powerLoss :: rest)

/-- R20: CRC_STATE is written only by CRC_INIT, CRC_BYTE, CRC_WORD, CRC_HDR and reset (and is lost with power). -/
def Obligations.CrcStateWrittenOnlyByCrcCommands : Prop :=
  ∀ s t : State, step s = .next t → t.crc ≠ s.crc →
    (∃ a rest, s.port = .access a :: rest ∧ Safety.isCrcCommand (decode a) = true) ∨
    (∃ held rest, s.port = .reset held :: rest ∧ t.crc = 0xFFFFFFFF#32) ∨ (∃ rest, s.port = .powerLoss :: rest)

/-- R13: only CLR_STATUS and reset clear INV and ILL (and they are lost with power). -/
def Obligations.StickyBitsClearedOnlyByClrStatus : Prop :=
  ∀ s t : State, step s = .next t → (s.inv = 1#1 ∧ t.inv ≠ 1#1 ∨ s.ill = 1#1 ∧ t.ill ≠ 1#1) →
    (∃ a rest, s.port = .access a :: rest ∧ decode a = .clrStatus) ∨
    (∃ held rest, s.port = .reset held :: rest) ∨ (∃ rest, s.port = .powerLoss :: rest)

/-- R16, R17, R18, R19: no command writes DATA; only a pack command that succeeds writes hdr; only HDR_UNPACK writes the
F_ registers. -/
def Obligations.CommandsWriteOnlyTheirRegisters : Prop :=
  ∀ (cmd : Word) (s t : State), exec (decodeCommand cmd) s = .next t →
    t.data = s.data ∧
    (t.hdr ≠ s.hdr → (decodeCommand cmd = .hdrPack ∨ decodeCommand cmd = .hdrPackCfg) ∧ t.last = 0#2) ∧
    ((t.fVer, t.fLen, t.fFrag, t.fType, t.fUser) ≠ (s.fVer, s.fLen, s.fFrag, s.fType, s.fUser) →
      decodeCommand cmd = .hdrUnpack)

/-! ## The host procedures -/

/-- R80: COMPUTE's reference sequence returns the checksum and changes CRC_STATE and STATUS only. -/
def Obligations.ComputeOnBlockGivesChecksum : Prop :=
  ∀ (bs : List Byte) (s : State), s.wasReset = true →
    s.compute bs = some (.ok (crc32 bs),
      { s with crc := ~~~(crc32 bs), last := 0#2, argerr := 0#5, resp := some (.data (crc32 bs)) })

/-- R84, R85: ENCODE's reference sequence on the block returns what ENCODE must return, leaves CFG alone, and on an
error issues no access. -/
def Obligations.EncodeOnBlockMeetsProcedure : Prop :=
  ∀ (payload : Option (List Byte)) (frag type user maxPacketSize : Nat) (s : State), s.wasReset = true →
    ∃ t, s.encodePacket payload frag type user maxPacketSize
        = some (encodePacket s.pver payload frag type user maxPacketSize, t) ∧
      t.pver = s.pver ∧
      ∀ k, encodePacket s.pver payload frag type user maxPacketSize = .err k → t = s

/-- R86 to R91: DECODE's reference sequence on the block returns what DECODE must return and leaves CFG alone. -/
def Obligations.DecodeOnBlockMeetsProcedure : Prop :=
  ∀ (packet : List Byte) (s : State), s.wasReset = true →
    ∃ t, s.decodePacket packet = some (decodePacket packet, t) ∧ t.pver = s.pver

/-- R95: the host procedures take no other state from the block than CFG.PVER. They have exclusive use of the block, R78:
their accesses are served before whatever waits at the port (log entry 15). -/
def Obligations.HostProceduresReadOnlyPver : Prop :=
  ∀ s s' : State, s.wasReset = true → s'.wasReset = true →
    (∀ bs, (s.compute bs).map Prod.fst = (s'.compute bs).map Prod.fst) ∧
    (∀ packet, (s.decodePacket packet).map Prod.fst = (s'.decodePacket packet).map Prod.fst) ∧
    (s.pver = s'.pver → ∀ payload frag type user maxPacketSize,
      (s.encodePacket payload frag type user maxPacketSize).map Prod.fst
        = (s'.encodePacket payload frag type user maxPacketSize).map Prod.fst)

/-- R94 item 1: decoding what ENCODE made gives the fields and the payload back. -/
def Obligations.EncodeThenDecodeRoundTrip : Prop :=
  ∀ (v : BitVec 4) (p out : List Byte) (frag type user maxPacketSize : Nat),
    encodePacket v (some p) frag type user maxPacketSize = .ok out →
    decodePacket out = .ok
      { protocolVersion := v, totalLength := 8 + p.length + 4, fragmentFlag := BitVec.ofNat 1 frag,
        payloadType := BitVec.ofNat 4 type, userField := BitVec.ofNat 10 user, payload := p }

/-- R82, R83: ENCODE rejects an argument out of range first, then a total length above the effective maximum, and
succeeds otherwise with a packet of exactly that length. -/
def Obligations.EncodeChecksInOrder : Prop :=
  ∀ (v : BitVec 4) (p : List Byte) (frag type user maxPacketSize : Nat),
    encodePacket v none frag type user maxPacketSize = .err .invalidArgument ∧
    ((1 < frag ∨ 15 < type ∨ 1023 < user) →
      encodePacket v (some p) frag type user maxPacketSize = .err .invalidArgument) ∧
    (frag ≤ 1 → type ≤ 15 → user ≤ 1023 →
      ((2 ^ 45 - 1 < p.length + 12 ∨ (maxPacketSize ≠ 0 ∧ maxPacketSize < p.length + 12)) →
        encodePacket v (some p) frag type user maxPacketSize = .err .payloadTooLarge) ∧
      (p.length + 12 ≤ 2 ^ 45 - 1 → (maxPacketSize = 0 ∨ p.length + 12 ≤ maxPacketSize) →
        ∃ out, encodePacket v (some p) frag type user maxPacketSize = .ok out ∧ out.length = p.length + 12))

/-- R86 to R91: DECODE's checks in their order, on numbers; PayloadTooLarge never comes out of DECODE (R87). -/
def Obligations.DecodeChecksInOrder : Prop :=
  ∀ packet : List Byte,
    (packet.length < 12 → decodePacket packet = .err .bufferTooSmall) ∧
    (12 ≤ packet.length → Safety.declaredLength packet < 12 → decodePacket packet = .err .bufferTooSmall) ∧
    (12 ≤ packet.length → 12 ≤ Safety.declaredLength packet → Safety.declaredLength packet ≠ packet.length →
      decodePacket packet = .err .lengthMismatch) ∧
    (12 ≤ packet.length → Safety.declaredLength packet = packet.length →
      le32 (packet.drop (packet.length - 4)) ≠ crc32 (packet.take (packet.length - 4)) →
      decodePacket packet = .err .crcMismatch) ∧
    (12 ≤ packet.length → Safety.declaredLength packet = packet.length →
      le32 (packet.drop (packet.length - 4)) = crc32 (packet.take (packet.length - 4)) →
      ∃ q, decodePacket packet = .ok q ∧ q.totalLength = packet.length ∧
        q.payload = (packet.drop 8).take (packet.length - 12)) ∧
    decodePacket packet ≠ .err .payloadTooLarge

/-- R94 item 6, 90_conflicts.md C2: a flipped bit is found: outside the length field and in the trailer as CrcMismatch,
inside the length field as a size error. -/
def Obligations.FlippedBitIsDetected : Prop :=
  ∀ (packet : List Byte) (q : Packet) (k i : Nat), decodePacket packet = .ok q → k < packet.length → i < 8 →
    (¬(4 ≤ 8 * k + i ∧ 8 * k + i ≤ 48) → decodePacket (Safety.flipBit packet k i) = .err .crcMismatch) ∧
    (4 ≤ 8 * k + i → 8 * k + i ≤ 48 →
      decodePacket (Safety.flipBit packet k i) = .err .bufferTooSmall ∨
      decodePacket (Safety.flipBit packet k i) = .err .lengthMismatch)

/-- R94 item 6, 90_conflicts.md C3: one byte appended gives LengthMismatch; one byte cut off gives LengthMismatch, or
BufferTooSmall when fewer than 12 are left. -/
def Obligations.PaddedOrCutPacketIsRejected : Prop :=
  ∀ (packet : List Byte) (q : Packet), decodePacket packet = .ok q →
    (∀ b, decodePacket (packet ++ [b]) = .err .lengthMismatch) ∧
    (packet.length = 12 → decodePacket packet.dropLast = .err .bufferTooSmall) ∧
    (packet.length ≠ 12 → decodePacket packet.dropLast = .err .lengthMismatch)

/-- R93: the two ways to set the version give the same result and the same CFG; the direct way only for v ≤ 0xFFFFFF,
since R93 gives it for no larger v (log entry 19). -/
def Obligations.SetProtocolVersionBothWays : Prop :=
  ∀ (v : Nat) (s : State), s.wasReset = true →
    (v ≤ 15 → ∃ t, s.setProtocolVersion v = some (.ok (), t) ∧ t.pver = BitVec.ofNat 4 v) ∧
    (15 < v → s.setProtocolVersion v = some (.err .invalidArgument, s)) ∧
    (v ≤ 0xFFFFFF → ∃ t u r, s.setProtocolVersion v = some (r, t) ∧ s.setProtocolVersionDirect v = some (r, u) ∧
      u.pver = t.pver)
end

