-- ==== Sys2Proof/Laws/Bits.lean ====
section
/-!
SUPPORT. What the halves of a 64-bit quantity and the bytes of a word satisfy.
-/

namespace Sys2Proof

@[simp] theorem loHalf_append (h l : Word) : loHalf (h ++ l) = l := by
  ext i hi
  have := BitVec.getLsbD_append (x := h) (y := l) (i := i)
  simp only [loHalf, BitVec.getElem_extractLsb', Nat.zero_add]
  simpa [hi, BitVec.getLsbD_eq_getElem hi] using this

@[simp] theorem hiHalf_append (h l : Word) : hiHalf (h ++ l) = h := by
  ext i hi
  have := BitVec.getLsbD_append (x := h) (y := l) (i := 32 + i)
  simp only [hiHalf, BitVec.getElem_extractLsb']
  simpa [BitVec.getLsbD_eq_getElem hi] using this

@[simp] theorem hiHalf_append_loHalf (v : DWord) : hiHalf v ++ loHalf v = v := by
  ext i hi
  simp only [hiHalf, loHalf, BitVec.getElem_append, BitVec.getElem_extractLsb']
  split
  · simp [BitVec.getLsbD_eq_getElem hi]
  · rw [show 32 + (i - 32) = i by omega, BitVec.getLsbD_eq_getElem hi]

@[simp] theorem loHalf_withLoHalf (v : DWord) (w : Word) : loHalf (withLoHalf v w) = w := by
  simp [withLoHalf]

@[simp] theorem hiHalf_withLoHalf (v : DWord) (w : Word) : hiHalf (withLoHalf v w) = hiHalf v := by
  simp [withLoHalf]

@[simp] theorem loHalf_withHiHalf (v : DWord) (w : Word) : loHalf (withHiHalf v w) = loHalf v := by
  simp [withHiHalf]

@[simp] theorem hiHalf_withHiHalf (v : DWord) (w : Word) : hiHalf (withHiHalf v w) = w := by
  simp [withHiHalf]

/-- The two halves written one after the other give the whole, whatever was there. -/
@[simp] theorem withHiHalf_withLoHalf (v w : DWord) : withHiHalf (withLoHalf v (loHalf w)) (hiHalf w) = w := by
  simp [withHiHalf]

theorem withLoHalf_withLoHalf (v : DWord) (a b : Word) : withLoHalf (withLoHalf v a) b = withLoHalf v b := by
  simp [withLoHalf]

theorem withHiHalf_withHiHalf (v : DWord) (a b : Word) : withHiHalf (withHiHalf v a) b = withHiHalf v b := by
  simp [withHiHalf]

@[simp] theorem length_bytes32 (c : Word) : (bytes32 c).length = 4 := rfl

@[simp] theorem length_bytes64 (w : DWord) : (bytes64 w).length = 8 := rfl

theorem leNat_lt (bs : List Byte) : leNat bs < 256 ^ bs.length := by
  induction bs with
  | nil => simp [leNat]
  | cons b bs ih =>
    have := b.isLt
    simp only [leNat, List.length_cons, Nat.pow_succ]
    omega

theorem leNat_append (as bs : List Byte) : leNat (as ++ bs) = leNat as + 256 ^ as.length * leNat bs := by
  induction as with
  | nil => simp [leNat]
  | cons a as ih => simp [leNat, ih, Nat.pow_succ]; ring

theorem toNat_byteOfWord (v : Word) (k : Nat) : (byteOfWord v k).toNat = v.toNat / 2 ^ (8 * k) % 256 := by
  simp [byteOfWord, BitVec.extractLsb'_toNat, Nat.shiftRight_eq_div_pow]

theorem toNat_byteOfDWord (v : DWord) (k : Nat) : (byteOfDWord v k).toNat = v.toNat / 2 ^ (8 * k) % 256 := by
  simp [byteOfDWord, BitVec.extractLsb'_toNat, Nat.shiftRight_eq_div_pow]

theorem leNat_bytes32 (c : Word) : leNat (bytes32 c) = c.toNat := by
  have := c.isLt
  simp only [bytes32, leNat, toNat_byteOfWord]
  omega

theorem leNat_bytes64 (w : DWord) : leNat (bytes64 w) = w.toNat := by
  have := w.isLt
  simp only [bytes64, leNat, toNat_byteOfDWord]
  omega

/-- Reading the trailer bytes little-endian gives the word back. -/
@[simp] theorem le32_bytes32 (c : Word) : le32 (bytes32 c) = c := by
  simp [le32, leNat_bytes32]

/-- Reading the header bytes little-endian gives the header word back. -/
@[simp] theorem le64_bytes64 (w : DWord) : le64 (bytes64 w) = w := by
  simp [le64, leNat_bytes64]

end Sys2Proof
end

