-- ==== Sys2Proof/Laws/Crc.lean ====
section
/-!
SUPPORT. The CRC functions on byte sequences.
-/

namespace Sys2Proof.Machine

@[simp] theorem crcBytes_nil (c : Word) : crcBytes c [] = c := rfl

@[simp] theorem crcBytes_cons (c : Word) (b : Byte) (bs : List Byte) :
    crcBytes c (b :: bs) = crcBytes (crcByte c b) bs := rfl

theorem crcBytes_append (c : Word) (as bs : List Byte) : crcBytes c (as ++ bs) = crcBytes (crcBytes c as) bs := by
  simp [crcBytes]

theorem crc32_eq (bs : List Byte) : crc32 bs = ~~~(crcBytes Const.crcInitValue bs) := rfl

/-- The top bit of a bit step is the bit that was fed back. -/
theorem crcBit_top (c : Word) (d : Bool) : (crcBit c d).getLsbD 31 = (c.getLsbD 0 ^^ d) := by
  have hp : Const.crcPoly.getLsbD 31 = true := by decide
  simp only [crcBit]
  split <;> simp_all

end Sys2Proof.Machine
end

