-- ==== Sys2Proof/Laws/Decode.lean ====
section
/-!
SUPPORT. What the decoder can answer: one inversion lemma, and that a command word is never a bus access.
-/

namespace Sys2Proof

/-- Everything `decodeCommand` can answer for a word (spec/30_encoding.md R46). -/
theorem decodeCommand_cases (cmd : Word) :
    decodeCommand cmd = .illegal cmd ∨
    (cmdImm cmd = 0 ∧ (decodeCommand cmd = .crcInit ∨ decodeCommand cmd = .crcWord ∨ decodeCommand cmd = .crcHdr ∨
      decodeCommand cmd = .hdrPack ∨ decodeCommand cmd = .hdrPackCfg ∨ decodeCommand cmd = .hdrUnpack ∨
      decodeCommand cmd = .clrStatus)) ∨
    ((cmdImm cmd).extractLsb' 8 16 = 0 ∧ decodeCommand cmd = .crcByte ((cmdImm cmd).extractLsb' 0 8)) ∨
    decodeCommand cmd = .setPver (cmdImm cmd) := by
  simp only [decodeCommand, ifImmZero]
  split_ifs <;> simp_all

/-- A command word never decodes to a read. -/
theorem decodeCommand_ne_rd (cmd : Word) (off : Offset) (size : Nat) : decodeCommand cmd ≠ .rd off size := by
  intro h
  rcases decodeCommand_cases cmd with h' | ⟨_, h'⟩ | ⟨_, h'⟩ | h' <;> simp [h] at h'

/-- A command word never decodes to a write. -/
theorem decodeCommand_ne_wr (cmd : Word) (off : Offset) (size : Nat) (v : Word) :
    decodeCommand cmd ≠ .wr off size v := by
  intro h
  rcases decodeCommand_cases cmd with h' | ⟨_, h'⟩ | ⟨_, h'⟩ | h' <;> simp [h] at h'

@[simp] theorem decode_cmdWrite (cmd : Word) : decode (cmdWrite cmd) = decodeCommand cmd := by
  simp [decode, cmdWrite]

@[simp] theorem decode_read (off : Offset) (size : Nat) : decode ⟨.read, off, size⟩ = .rd off size := rfl

/-- A write that does not start a command decodes to WR. -/
theorem decode_write (off : Offset) (size : Nat) (v : Word) (h : ¬(off = Reg.cmd.offset ∧ size = 4)) :
    decode ⟨.write v, off, size⟩ = .wr off size v := by
  simp [decode, h]

@[simp] theorem regAt_offset (r : Reg) : regAt r.offset = some r := by cases r <;> rfl

@[simp] theorem servedReg_offset (r : Reg) : servedReg r.offset 4 = some r := by cases r <;> rfl

/-- The accesses the block serves: 4 bytes, at the offset of a register (R27, R28, R29). -/
theorem servedReg_eq_some (off : Offset) (size : Nat) (r : Reg) :
    servedReg off size = some r ↔ size = 4 ∧ off = r.offset := by
  constructor
  · intro h
    by_cases hs : size = 4
    · subst hs
      revert off r
      decide
    · simp [servedReg, hs] at h
  · rintro ⟨rfl, rfl⟩
    simp

/-! ## OP and IMM on natural numbers -/

theorem toNat_cmdOp (cmd : Word) : (cmdOp cmd).toNat = cmd.toNat % 256 := by
  simp [cmdOp, BitVec.extractLsb'_toNat]

theorem toNat_cmdImm (cmd : Word) : (cmdImm cmd).toNat = cmd.toNat / 256 := by
  have := cmd.isLt
  simp [cmdImm, BitVec.extractLsb'_toNat, Nat.shiftRight_eq_div_pow]
  omega

theorem toNat_commandWord (op : Byte) (imm : BitVec 24) :
    (commandWord op imm).toNat = imm.toNat * 256 + op.toNat := by
  have h := BitVec.toNat_append imm op
  rw [Nat.shiftLeft_eq, Nat.mul_comm, ← Nat.two_pow_add_eq_or_of_lt op.isLt] at h
  rw [Nat.mul_comm]
  exact h

@[simp] theorem cmdOp_commandWord (op : Byte) (imm : BitVec 24) : cmdOp (commandWord op imm) = op := by
  apply BitVec.eq_of_toNat_eq
  have := op.isLt
  rw [toNat_cmdOp, toNat_commandWord]
  omega

@[simp] theorem cmdImm_commandWord (op : Byte) (imm : BitVec 24) : cmdImm (commandWord op imm) = imm := by
  apply BitVec.eq_of_toNat_eq
  have := op.isLt
  rw [toNat_cmdImm, toNat_commandWord]
  omega

/-! ## The low byte of a command word -/

/-- A row takes only words whose low byte is the row's opcode. -/
theorem lowByte_of_hit {r : OpRow} {w : Word} (hr : r ∈ opRows) (h : r.hit w = true) : w &&& 0xFF#32 = r.value := by
  have hm : r.mask &&& 0xFF#32 = 0xFF#32 ∧ r.value &&& 0xFF#32 = r.value := by
    revert hr
    clear h
    revert r
    decide
  have h' : w &&& r.mask = r.value := by simpa [OpRow.hit] using h
  rw [← hm.1, ← BitVec.and_assoc, h', hm.2]

/-- The low byte of a command word is its OP. -/
theorem lowByte_commandWord (op : Byte) (imm : BitVec 24) : commandWord op imm &&& 0xFF#32 = op.setWidth 32 := by
  apply BitVec.eq_of_toNat_eq
  rw [BitVec.toNat_and, show (0xFF#32).toNat = 2 ^ 8 - 1 from rfl, Nat.and_two_pow_sub_one_eq_mod,
    toNat_commandWord, BitVec.toNat_setWidth]
  have := op.isLt
  omega

end Sys2Proof
end

