-- ==== Sys2Proof/Laws/State.lean ====
section
/-!
SUPPORT. One lemma for each field of the state under each named update, so that no proof unfolds a record update.
-/

namespace Sys2Proof.Machine

/-! ### setCrc -/

@[simp] theorem Block.setCrc_crc (c : Word) (b : Block) : (b.setCrc c).crc = c := rfl
@[simp] theorem Block.setCrc_pver (c : Word) (b : Block) : (b.setCrc c).pver = b.pver := rfl
@[simp] theorem Block.setCrc_last (c : Word) (b : Block) : (b.setCrc c).last = b.last := rfl
@[simp] theorem Block.setCrc_inv (c : Word) (b : Block) : (b.setCrc c).inv = b.inv := rfl
@[simp] theorem Block.setCrc_ill (c : Word) (b : Block) : (b.setCrc c).ill = b.ill := rfl
@[simp] theorem Block.setCrc_argerr (c : Word) (b : Block) : (b.setCrc c).argerr = b.argerr := rfl
@[simp] theorem Block.setCrc_data (c : Word) (b : Block) : (b.setCrc c).data = b.data := rfl
@[simp] theorem Block.setCrc_hdr (c : Word) (b : Block) : (b.setCrc c).hdr = b.hdr := rfl
@[simp] theorem Block.setCrc_fVer (c : Word) (b : Block) : (b.setCrc c).fVer = b.fVer := rfl
@[simp] theorem Block.setCrc_fFrag (c : Word) (b : Block) : (b.setCrc c).fFrag = b.fFrag := rfl
@[simp] theorem Block.setCrc_fLen (c : Word) (b : Block) : (b.setCrc c).fLen = b.fLen := rfl
@[simp] theorem Block.setCrc_fType (c : Word) (b : Block) : (b.setCrc c).fType = b.fType := rfl
@[simp] theorem Block.setCrc_fUser (c : Word) (b : Block) : (b.setCrc c).fUser = b.fUser := rfl

/-! ### setPver -/

@[simp] theorem Block.setPver_crc (v : BitVec 4) (b : Block) : (b.setPver v).crc = b.crc := rfl
@[simp] theorem Block.setPver_pver (v : BitVec 4) (b : Block) : (b.setPver v).pver = v := rfl
@[simp] theorem Block.setPver_last (v : BitVec 4) (b : Block) : (b.setPver v).last = b.last := rfl
@[simp] theorem Block.setPver_inv (v : BitVec 4) (b : Block) : (b.setPver v).inv = b.inv := rfl
@[simp] theorem Block.setPver_ill (v : BitVec 4) (b : Block) : (b.setPver v).ill = b.ill := rfl
@[simp] theorem Block.setPver_argerr (v : BitVec 4) (b : Block) : (b.setPver v).argerr = b.argerr := rfl
@[simp] theorem Block.setPver_data (v : BitVec 4) (b : Block) : (b.setPver v).data = b.data := rfl
@[simp] theorem Block.setPver_hdr (v : BitVec 4) (b : Block) : (b.setPver v).hdr = b.hdr := rfl
@[simp] theorem Block.setPver_fVer (v : BitVec 4) (b : Block) : (b.setPver v).fVer = b.fVer := rfl
@[simp] theorem Block.setPver_fFrag (v : BitVec 4) (b : Block) : (b.setPver v).fFrag = b.fFrag := rfl
@[simp] theorem Block.setPver_fLen (v : BitVec 4) (b : Block) : (b.setPver v).fLen = b.fLen := rfl
@[simp] theorem Block.setPver_fType (v : BitVec 4) (b : Block) : (b.setPver v).fType = b.fType := rfl
@[simp] theorem Block.setPver_fUser (v : BitVec 4) (b : Block) : (b.setPver v).fUser = b.fUser := rfl

/-! ### setData -/

@[simp] theorem Block.setData_crc (v : Word) (b : Block) : (b.setData v).crc = b.crc := rfl
@[simp] theorem Block.setData_pver (v : Word) (b : Block) : (b.setData v).pver = b.pver := rfl
@[simp] theorem Block.setData_last (v : Word) (b : Block) : (b.setData v).last = b.last := rfl
@[simp] theorem Block.setData_inv (v : Word) (b : Block) : (b.setData v).inv = b.inv := rfl
@[simp] theorem Block.setData_ill (v : Word) (b : Block) : (b.setData v).ill = b.ill := rfl
@[simp] theorem Block.setData_argerr (v : Word) (b : Block) : (b.setData v).argerr = b.argerr := rfl
@[simp] theorem Block.setData_data (v : Word) (b : Block) : (b.setData v).data = v := rfl
@[simp] theorem Block.setData_hdr (v : Word) (b : Block) : (b.setData v).hdr = b.hdr := rfl
@[simp] theorem Block.setData_fVer (v : Word) (b : Block) : (b.setData v).fVer = b.fVer := rfl
@[simp] theorem Block.setData_fFrag (v : Word) (b : Block) : (b.setData v).fFrag = b.fFrag := rfl
@[simp] theorem Block.setData_fLen (v : Word) (b : Block) : (b.setData v).fLen = b.fLen := rfl
@[simp] theorem Block.setData_fType (v : Word) (b : Block) : (b.setData v).fType = b.fType := rfl
@[simp] theorem Block.setData_fUser (v : Word) (b : Block) : (b.setData v).fUser = b.fUser := rfl

/-! ### setHdr -/

@[simp] theorem Block.setHdr_crc (w : DWord) (b : Block) : (b.setHdr w).crc = b.crc := rfl
@[simp] theorem Block.setHdr_pver (w : DWord) (b : Block) : (b.setHdr w).pver = b.pver := rfl
@[simp] theorem Block.setHdr_last (w : DWord) (b : Block) : (b.setHdr w).last = b.last := rfl
@[simp] theorem Block.setHdr_inv (w : DWord) (b : Block) : (b.setHdr w).inv = b.inv := rfl
@[simp] theorem Block.setHdr_ill (w : DWord) (b : Block) : (b.setHdr w).ill = b.ill := rfl
@[simp] theorem Block.setHdr_argerr (w : DWord) (b : Block) : (b.setHdr w).argerr = b.argerr := rfl
@[simp] theorem Block.setHdr_data (w : DWord) (b : Block) : (b.setHdr w).data = b.data := rfl
@[simp] theorem Block.setHdr_hdr (w : DWord) (b : Block) : (b.setHdr w).hdr = w := rfl
@[simp] theorem Block.setHdr_fVer (w : DWord) (b : Block) : (b.setHdr w).fVer = b.fVer := rfl
@[simp] theorem Block.setHdr_fFrag (w : DWord) (b : Block) : (b.setHdr w).fFrag = b.fFrag := rfl
@[simp] theorem Block.setHdr_fLen (w : DWord) (b : Block) : (b.setHdr w).fLen = b.fLen := rfl
@[simp] theorem Block.setHdr_fType (w : DWord) (b : Block) : (b.setHdr w).fType = b.fType := rfl
@[simp] theorem Block.setHdr_fUser (w : DWord) (b : Block) : (b.setHdr w).fUser = b.fUser := rfl

/-! ### setFields -/

@[simp] theorem Block.setFields_crc (f : Fields) (b : Block) : (b.setFields f).crc = b.crc := rfl
@[simp] theorem Block.setFields_pver (f : Fields) (b : Block) : (b.setFields f).pver = b.pver := rfl
@[simp] theorem Block.setFields_last (f : Fields) (b : Block) : (b.setFields f).last = b.last := rfl
@[simp] theorem Block.setFields_inv (f : Fields) (b : Block) : (b.setFields f).inv = b.inv := rfl
@[simp] theorem Block.setFields_ill (f : Fields) (b : Block) : (b.setFields f).ill = b.ill := rfl
@[simp] theorem Block.setFields_argerr (f : Fields) (b : Block) : (b.setFields f).argerr = b.argerr := rfl
@[simp] theorem Block.setFields_data (f : Fields) (b : Block) : (b.setFields f).data = b.data := rfl
@[simp] theorem Block.setFields_hdr (f : Fields) (b : Block) : (b.setFields f).hdr = b.hdr := rfl
@[simp] theorem Block.setFields_fVer (f : Fields) (b : Block) : (b.setFields f).fVer = f.ver := rfl
@[simp] theorem Block.setFields_fFrag (f : Fields) (b : Block) : (b.setFields f).fFrag = f.frag := rfl
@[simp] theorem Block.setFields_fLen (f : Fields) (b : Block) : (b.setFields f).fLen = f.len := rfl
@[simp] theorem Block.setFields_fType (f : Fields) (b : Block) : (b.setFields f).fType = f.type := rfl
@[simp] theorem Block.setFields_fUser (f : Fields) (b : Block) : (b.setFields f).fUser = f.user := rfl

/-! ### report -/

@[simp] theorem Block.report_crc (k : ResultKind) (m : BitVec 5) (b : Block) : (b.report k m).crc = b.crc := rfl
@[simp] theorem Block.report_pver (k : ResultKind) (m : BitVec 5) (b : Block) : (b.report k m).pver = b.pver := rfl
@[simp] theorem Block.report_last (k : ResultKind) (m : BitVec 5) (b : Block) : (b.report k m).last = lastCode k := rfl
@[simp] theorem Block.report_inv (k : ResultKind) (m : BitVec 5) (b : Block) : (b.report k m).inv = if k = .invalidArgument then 1#1 else b.inv := rfl
@[simp] theorem Block.report_ill (k : ResultKind) (m : BitVec 5) (b : Block) : (b.report k m).ill = if k = .illegalCommand then 1#1 else b.ill := rfl
@[simp] theorem Block.report_argerr (k : ResultKind) (m : BitVec 5) (b : Block) : (b.report k m).argerr = m := rfl
@[simp] theorem Block.report_data (k : ResultKind) (m : BitVec 5) (b : Block) : (b.report k m).data = b.data := rfl
@[simp] theorem Block.report_hdr (k : ResultKind) (m : BitVec 5) (b : Block) : (b.report k m).hdr = b.hdr := rfl
@[simp] theorem Block.report_fVer (k : ResultKind) (m : BitVec 5) (b : Block) : (b.report k m).fVer = b.fVer := rfl
@[simp] theorem Block.report_fFrag (k : ResultKind) (m : BitVec 5) (b : Block) : (b.report k m).fFrag = b.fFrag := rfl
@[simp] theorem Block.report_fLen (k : ResultKind) (m : BitVec 5) (b : Block) : (b.report k m).fLen = b.fLen := rfl
@[simp] theorem Block.report_fType (k : ResultKind) (m : BitVec 5) (b : Block) : (b.report k m).fType = b.fType := rfl
@[simp] theorem Block.report_fUser (k : ResultKind) (m : BitVec 5) (b : Block) : (b.report k m).fUser = b.fUser := rfl

/-! ### clearSticky -/

@[simp] theorem Block.clearSticky_crc (b : Block) : (b.clearSticky).crc = b.crc := rfl
@[simp] theorem Block.clearSticky_pver (b : Block) : (b.clearSticky).pver = b.pver := rfl
@[simp] theorem Block.clearSticky_last (b : Block) : (b.clearSticky).last = b.last := rfl
@[simp] theorem Block.clearSticky_inv (b : Block) : (b.clearSticky).inv = 0#1 := rfl
@[simp] theorem Block.clearSticky_ill (b : Block) : (b.clearSticky).ill = 0#1 := rfl
@[simp] theorem Block.clearSticky_argerr (b : Block) : (b.clearSticky).argerr = b.argerr := rfl
@[simp] theorem Block.clearSticky_data (b : Block) : (b.clearSticky).data = b.data := rfl
@[simp] theorem Block.clearSticky_hdr (b : Block) : (b.clearSticky).hdr = b.hdr := rfl
@[simp] theorem Block.clearSticky_fVer (b : Block) : (b.clearSticky).fVer = b.fVer := rfl
@[simp] theorem Block.clearSticky_fFrag (b : Block) : (b.clearSticky).fFrag = b.fFrag := rfl
@[simp] theorem Block.clearSticky_fLen (b : Block) : (b.clearSticky).fLen = b.fLen := rfl
@[simp] theorem Block.clearSticky_fType (b : Block) : (b.clearSticky).fType = b.fType := rfl
@[simp] theorem Block.clearSticky_fUser (b : Block) : (b.clearSticky).fUser = b.fUser := rfl

/-! ### answer -/

@[simp] theorem State.answer_toBlock (b : Block) (r : Response) (s : State) : (s.answer b r).toBlock = b := rfl
@[simp] theorem State.answer_port (b : Block) (r : Response) (s : State) : (s.answer b r).port = s.port := rfl
@[simp] theorem State.answer_resp (b : Block) (r : Response) (s : State) : (s.answer b r).resp = some r := rfl
@[simp] theorem State.answer_wasReset (b : Block) (r : Response) (s : State) : (s.answer b r).wasReset = s.wasReset := rfl
@[simp] theorem State.answer_powerUps (b : Block) (r : Response) (s : State) : (s.answer b r).powerUps = s.powerUps := rfl

/-! ### applyReset -/

@[simp] theorem State.applyReset_toBlock (s : State) : (s.applyReset).toBlock = Block.reset := rfl
@[simp] theorem State.applyReset_port (s : State) : (s.applyReset).port = s.port := rfl
@[simp] theorem State.applyReset_resp (s : State) : (s.applyReset).resp = none := rfl
@[simp] theorem State.applyReset_wasReset (s : State) : (s.applyReset).wasReset = true := rfl
@[simp] theorem State.applyReset_powerUps (s : State) : (s.applyReset).powerUps = s.powerUps := rfl

/-! ### losePower -/

@[simp] theorem State.losePower_toBlock (s : State) : (s.losePower).toBlock = Block.unspecified s.powerUps := rfl
@[simp] theorem State.losePower_port (s : State) : (s.losePower).port = s.port := rfl
@[simp] theorem State.losePower_resp (s : State) : (s.losePower).resp = none := rfl
@[simp] theorem State.losePower_wasReset (s : State) : (s.losePower).wasReset = false := rfl
@[simp] theorem State.losePower_powerUps (s : State) : (s.losePower).powerUps = s.powerUps + 1 := rfl

/-! ### offerCommand -/

@[simp] theorem State.offerCommand_toBlock (cmd : Word) (s : State) : (s.offerCommand cmd).toBlock = s.toBlock := rfl
@[simp] theorem State.offerCommand_port (cmd : Word) (s : State) : (s.offerCommand cmd).port = .access (cmdWrite cmd) :: s.port := rfl
@[simp] theorem State.offerCommand_resp (cmd : Word) (s : State) : (s.offerCommand cmd).resp = s.resp := rfl
@[simp] theorem State.offerCommand_wasReset (cmd : Word) (s : State) : (s.offerCommand cmd).wasReset = true := rfl
@[simp] theorem State.offerCommand_powerUps (cmd : Word) (s : State) : (s.offerCommand cmd).powerUps = s.powerUps := rfl

/-! ### Two answers in a row, and the answer that changes nothing -/

@[simp] theorem State.answer_answer (b b' : Block) (r r' : Response) (s : State) :
    (s.answer b r).answer b' r' = s.answer b' r' := rfl

@[simp] theorem Block.eta (b : Block) :
    (⟨b.crc, b.pver, b.last, b.inv, b.ill, b.argerr, b.data, b.hdr, b.fVer, b.fFrag, b.fLen, b.fType, b.fUser⟩ : Block)
      = b := rfl

end Sys2Proof.Machine
end

