-- ==== Sys2Proof/Laws/Operands.lean ====
section
/-!
SUPPORT. The operand forms on natural numbers: what the range checks, packing and unpacking compute.
-/

namespace Sys2Proof.Machine

/-- The number that a concatenation stands for. -/
theorem toNat_append {m n : Nat} (x : BitVec m) (y : BitVec n) : (x ++ y).toNat = x.toNat * 2 ^ n + y.toNat := by
  rw [BitVec.toNat_append, Nat.shiftLeft_eq, Nat.mul_comm, ← Nat.two_pow_add_eq_or_of_lt y.isLt]

theorem append_ofBool (a b c d e : Bool) :
    (BitVec.ofBool a ++ BitVec.ofBool b ++ BitVec.ofBool c ++ BitVec.ofBool d ++ BitVec.ofBool e : BitVec 5) =
      BitVec.ofNat 5 ((if e then 1 else 0) + (if d then 2 else 0) + (if c then 4 else 0) + (if b then 8 else 0)
        + (if a then 16 else 0)) := by
  revert a b c d e
  decide

/-- The mask of the range checks, on natural numbers (spec/41_header.md R64). -/
theorem argcheck_eq_rangeMask (f : Fields) :
    argcheck f = Safety.rangeMask f.ver.toNat f.len.toNat f.frag.toNat f.type.toNat f.user.toNat := by
  have h1 : (f.ver > 15#32) ↔ 15 < f.ver.toNat := by simp [BitVec.lt_def]
  have h2 : (f.len > 0x1FFFFFFFFFFF#64) ↔ 2 ^ 45 - 1 < f.len.toNat := by simp [BitVec.lt_def]
  have h3 : (f.frag > 1#32) ↔ 1 < f.frag.toNat := by simp [BitVec.lt_def]
  have h4 : (f.type > 15#32) ↔ 15 < f.type.toNat := by simp [BitVec.lt_def]
  have h5 : (f.user > 1023#32) ↔ 1023 < f.user.toNat := by simp [BitVec.lt_def]
  unfold argcheck Safety.rangeMask
  rw [append_ofBool]
  simp only [decide_eq_true_eq, h1, h2, h3, h4, h5]

/-- No check fails exactly when every operand is in range. -/
theorem rangeMask_eq_zero (a b c d e : Nat) : Safety.rangeMask a b c d e = 0#5 ↔ Safety.InRange a b c d e := by
  unfold Safety.rangeMask Safety.InRange
  by_cases h1 : 15 < a <;> by_cases h2 : 2 ^ 45 - 1 < b <;> by_cases h3 : 1 < c <;> by_cases h4 : 15 < d <;>
    by_cases h5 : 1023 < e <;>
    simp only [h1, h2, h3, h4, h5, if_true, if_false, Nat.add_zero, Nat.zero_add] <;> simp <;> omega

/-- Unpacking, on natural numbers (R68). -/
theorem unpack_eq (w : DWord) :
    unpack w = ⟨BitVec.ofNat 32 (w.toNat % 2 ^ 4), BitVec.ofNat 64 (w.toNat / 2 ^ 4 % 2 ^ 45),
      BitVec.ofNat 32 (w.toNat / 2 ^ 49 % 2), BitVec.ofNat 32 (w.toNat / 2 ^ 50 % 2 ^ 4),
      BitVec.ofNat 32 (w.toNat / 2 ^ 54)⟩ := by
  have := w.isLt
  simp only [unpack, Fields.mk.injEq]
  refine ⟨?_, ?_, ?_, ?_, ?_⟩ <;> apply BitVec.eq_of_toNat_eq <;>
    simp [BitVec.extractLsb'_toNat, Nat.shiftRight_eq_div_pow] <;> omega

/-- SET_PVER's operand is the immediate's number (R45). -/
@[simp] theorem toNat_pverOperand (v : BitVec 24) : (pverOperand v).toNat = v.toNat := by
  have := v.isLt
  simp [pverOperand]
  omega

end Sys2Proof.Machine
end

