-- ==== Sys2Proof/Laws/Ops.lean ====
section
/-!
SUPPORT. One lemma for each shared operation that says everything it can do.
-/

namespace Sys2Proof.Machine

/-! ## Instructions -/

/-- Running a command word is running the instruction it decodes to. -/
theorem executeCommand_eq_exec (cmd : Word) (s : State) : executeCommand cmd s = exec (decodeCommand cmd) s := by
  unfold executeCommand
  cases h : decodeCommand cmd with
  | rd off size => exact absurd h (decodeCommand_ne_rd cmd off size)
  | wr off size v => exact absurd h (decodeCommand_ne_wr cmd off size v)
  | _ => rfl

/-- RD in one lemma: an answer with data, or BusError, the block as it was. -/
theorem exec_rd (off : Offset) (size : Nat) (s : State) :
    exec (.rd off size) s = .next (s.answer s.toBlock
      (match servedReg off size with
        | none => .busError off
        | some r => .data (s.toBlock.readReg r))) := by
  show execRd off size s = _
  unfold execRd
  cases servedReg off size <;> rfl

/-- WR to an access the block does not serve: BusError, the block as it was. -/
theorem exec_wr_unserved (off : Offset) (size : Nat) (v : Word) (s : State) (h : servedReg off size = none) :
    exec (.wr off size v) s = .next (s.answer s.toBlock (.busError off)) := by
  simp [exec, execWr, h]

/-- WR to CMD runs the command. -/
theorem exec_wr_cmd (off : Offset) (size : Nat) (v : Word) (s : State) (h : servedReg off size = some .cmd) :
    exec (.wr off size v) s = exec (decodeCommand v) s := by
  rw [← executeCommand_eq_exec]
  show execWr off size v s = _
  simp [execWr, h]

/-- WR to any other register writes it and answers OK. -/
theorem exec_wr_reg (off : Offset) (size : Nat) (v : Word) (r : Reg) (s : State) (h : servedReg off size = some r)
    (hr : r ≠ .cmd) : exec (.wr off size v) s = .next (s.answer (s.toBlock.writeReg r v) .done) := by
  show execWr off size v s = _
  cases r <;> simp_all [execWr]

/-- Everything a command can do: it leaves some block and answers OK. -/
theorem exec_decodeCommand_done (cmd : Word) (s : State) :
    ∃ b, exec (decodeCommand cmd) s = .next (s.answer b .done) := by
  cases h : decodeCommand cmd with
  | rd off size => exact absurd h (decodeCommand_ne_rd cmd off size)
  | wr off size v => exact absurd h (decodeCommand_ne_wr cmd off size v)
  | _ => exact ⟨_, rfl⟩

/-- Everything an instruction can do: it leaves some block and answers the access. -/
theorem exec_answers (i : Instr) (s : State) : ∃ b r, exec i s = .next (s.answer b r) := by
  cases i with
  | rd off size => exact ⟨_, _, exec_rd off size s⟩
  | wr off size v =>
    cases h : servedReg off size with
    | none => exact ⟨_, _, exec_wr_unserved off size v s h⟩
    | some r =>
      by_cases hr : r = .cmd
      · subst hr
        obtain ⟨b, hb⟩ := exec_decodeCommand_done v s
        exact ⟨b, _, (exec_wr_cmd off size v s h).trans hb⟩
      · exact ⟨_, _, exec_wr_reg off size v r s h hr⟩
  | _ => exact ⟨_, _, rfl⟩

/-- What a step runs is never a WR to CMD: the decoder gives the command itself. -/
theorem decode_ne_wr_cmd (a : Access) (off : Offset) (size : Nat) (v : Word) (h : decode a = .wr off size v) :
    servedReg off size ≠ some .cmd := by
  obtain ⟨kind, o, n⟩ := a
  cases kind with
  | read => simp at h
  | write w =>
    by_cases hc : o = Reg.cmd.offset ∧ n = 4
    · obtain ⟨rfl, rfl⟩ := hc
      exact absurd ((decode_cmdWrite w).symm.trans h) (decodeCommand_ne_wr _ _ _ _)
    · rw [decode_write _ _ _ hc] at h
      cases h
      rw [ne_eq, servedReg_eq_some]
      exact fun h => hc ⟨h.2, h.1⟩

/-! ## Steps -/

theorem step_idle (s : State) (h : s.port = []) : step s = .next s := by
  simp [step, State.arrival, h]

theorem step_access (s : State) (a : Access) (rest : List Event) (h : s.port = .access a :: rest)
    (hr : s.wasReset = true) : step s = exec (decode a) { s with port := rest } := by
  simp [step, State.arrival, h, hr]

theorem step_tooEarly (s : State) (a : Access) (rest : List Event) (h : s.port = .access a :: rest)
    (hr : s.wasReset = false) : step s = .refused .accessBeforeReset := by
  simp [step, State.arrival, h, hr]

theorem step_resetEvent (s : State) (held : Option Access) (rest : List Event) (h : s.port = .reset held :: rest) :
    step s = .next { s with port := rest }.applyReset := by
  simp [step, State.arrival, h]

theorem step_powerLoss (s : State) (rest : List Event) (h : s.port = .powerLoss :: rest) :
    step s = .next { s with port := rest }.losePower := by
  simp [step, State.arrival, h]

/-- Everything a step that answers a next state can have done. -/
theorem step_cases {s t : State} (h : step s = .next t) :
    (s.port = [] ∧ t = s) ∨
    (∃ a rest b r, s.port = .access a :: rest ∧ s.wasReset = true ∧
      exec (decode a) { s with port := rest } = .next t ∧ t = State.answer b r { s with port := rest }) ∨
    (∃ held rest, s.port = .reset held :: rest ∧ t = { s with port := rest }.applyReset) ∨
    (∃ rest, s.port = .powerLoss :: rest ∧ t = { s with port := rest }.losePower) := by
  cases hp : s.port with
  | nil => rw [step_idle s hp] at h; cases h; exact .inl ⟨rfl, rfl⟩
  | cons e rest =>
    cases e with
    | access a =>
      by_cases hr : s.wasReset = true
      · rw [step_access s a rest hp hr] at h
        obtain ⟨b, r, hb⟩ := exec_answers (decode a) { s with port := rest }
        refine .inr (.inl ⟨a, rest, b, r, rfl, hr, h, ?_⟩)
        rw [hb] at h; cases h; rfl
      · rw [step_tooEarly s a rest hp (by simpa using hr)] at h; cases h
    | reset held => rw [step_resetEvent s held rest hp] at h; cases h; exact .inr (.inr (.inl ⟨held, rest, rfl, rfl⟩))
    | powerLoss => rw [step_powerLoss s rest hp] at h; cases h; exact .inr (.inr (.inr ⟨rest, rfl, rfl⟩))

end Sys2Proof.Machine
end

