-- ==== Sys2Proof/Laws/PerInstr.lean ====
section
/-!
SUPPORT. Per instruction: the encoding of a well-formed instruction belongs to exactly one row of
spec/opcode_table.json, its own.
-/

namespace Sys2Proof.Laws.RowMatch

/-- The rows of the opcode table that take an access. -/
def rowsOf (a : Access) : List String :=
  match a.kind with
  | .read => ["RD"]
  | .write w =>
    if a.off = Reg.cmd.offset ∧ a.size = 4 then
      if isCommandWord w then (opRows.filter (·.hit w)).map (·.mnemonic) else ["(illegal)"]
    else ["WR"]

/-- The mnemonic of an instruction in the opcode table. -/
def mnemonic : Instr → String
  | .crcInit => "CRC_INIT"
  | .crcByte _ => "CRC_BYTE"
  | .crcWord => "CRC_WORD"
  | .crcHdr => "CRC_HDR"
  | .hdrPack => "HDR_PACK"
  | .hdrPackCfg => "HDR_PACK_CFG"
  | .hdrUnpack => "HDR_UNPACK"
  | .setPver _ => "SET_PVER"
  | .clrStatus => "CLR_STATUS"
  | .illegal _ => "(illegal)"
  | .rd _ _ => "RD"
  | .wr _ _ _ => "WR"

def Statement (i : Instr) : Prop := i.wellFormed = true → rowsOf (encode i) = [mnemonic i]

theorem crcInit : Statement .crcInit := fun _ => by decide

theorem crcByte (b : BitVec 8) : Statement (.crcByte b) := by
  intro _
  revert b
  decide +kernel

theorem crcWord : Statement .crcWord := fun _ => by decide

theorem crcHdr : Statement .crcHdr := fun _ => by decide

theorem hdrPack : Statement .hdrPack := fun _ => by decide

theorem hdrPackCfg : Statement .hdrPackCfg := fun _ => by decide

theorem hdrUnpack : Statement .hdrUnpack := fun _ => by decide

/-- Only the row SET_PVER has the opcode 0x20, and it takes every immediate. -/
theorem setPver (v : BitVec 24) : Statement (.setPver v) := by
  intro _
  have hop : commandWord Const.opSetPver v &&& 0xFF#32 = 0x20#32 := lowByte_commandWord _ v
  have hrows : ∀ r ∈ opRows, r.hit (commandWord Const.opSetPver v) = (r.value == 0x20#32) := by
    intro r hr
    rw [Bool.eq_iff_iff, beq_iff_eq]
    constructor
    · intro h
      exact (lowByte_of_hit hr h).symm.trans hop
    · intro h
      have hm : r.mask = 0xFF#32 := by
        revert h hr
        clear hop
        revert r
        decide
      simp [OpRow.hit, hm, hop, h]
  have hany : isCommandWord (commandWord Const.opSetPver v) = true := by
    refine List.any_eq_true.mpr ⟨⟨"SET_PVER", 0xFF#32, 0x20#32⟩, by decide, ?_⟩
    simp [OpRow.hit, hop]
  simp only [rowsOf, encode, cmdWrite, hany, List.filter_congr hrows, mnemonic]
  decide

theorem clrStatus : Statement .clrStatus := fun _ => by decide

theorem illegal (cmd : BitVec 32) : Statement (.illegal cmd) := by
  intro h
  have h' : isCommandWord cmd = false := by simpa [Instr.wellFormed] using h
  simp [rowsOf, encode, cmdWrite, mnemonic, h']

theorem rd (off : BitVec 6) (size : Nat) : Statement (.rd off size) := fun _ => rfl

theorem wr (off : BitVec 6) (size : Nat) (value : BitVec 32) : Statement (.wr off size value) := by
  intro h
  have h' : off ≠ Reg.cmd.offset := by
    simp [Instr.wellFormed] at h
    exact h.2
  simp [rowsOf, encode, mnemonic, h']

end Sys2Proof.Laws.RowMatch
end

