-- ==== Sys2Proof/Laws/Session.lean ====
section
/-!
SUPPORT. What one access of a host procedure does on a block that has been reset.
-/

namespace Sys2Proof.Machine

/-- Serving an access runs the instruction it decodes to; what waits at the port goes on waiting. -/
theorem serve_of_exec {s : State} {a : Access} {b : Block} {r : Response} (hr : s.wasReset = true)
    (h : exec (decode a) s = .next (s.answer b r)) : s.serve a = some (r, s.answer b r) := by
  have hs := step_access { s with port := .access a :: s.port } a s.port rfl hr
  unfold State.serve
  rw [hs]
  have : ({ ({ s with port := .access a :: s.port } : State) with port := s.port } : State) = s := rfl
  rw [this, h]
  rfl

/-- A register read of a host procedure. -/
theorem busRead_eq {s : State} (r : Reg) (hr : s.wasReset = true) :
    s.busRead r = some (s.toBlock.readReg r, s.answer s.toBlock (.data (s.toBlock.readReg r))) := by
  have : exec (decode (encode (rdInstr r))) s = .next (s.answer s.toBlock (.data (s.toBlock.readReg r))) := by
    have h := exec_rd r.offset 4 s
    rw [servedReg_offset] at h
    exact h
  simp [State.busRead, serve_of_exec hr this]

/-- A read of a register pair: what the pair holds, {hi, lo}. -/
theorem busRead64_eq {s : State} (p : Pair) (hr : s.wasReset = true) :
    s.busRead64 p = some (s.toBlock.readReg p.hi ++ s.toBlock.readReg p.lo,
      s.answer s.toBlock (.data (s.toBlock.readReg p.hi))) := by
  unfold State.busRead64
  rw [busRead_eq p.lo hr]
  simp only [Option.bind_some]
  rw [busRead_eq (s := s.answer _ _) p.hi hr]
  rfl

/-- The header word read back whole. -/
theorem busRead64_hdr {s : State} (hr : s.wasReset = true) :
    s.busRead64 .hdr = some (s.hdr, s.answer s.toBlock (.data (hiHalf s.hdr))) := by
  rw [busRead64_eq .hdr hr]
  simp only [Pair.hi, Pair.lo, Block.readReg, hiHalf_append_loHalf]

/-- The total length read back whole. -/
theorem busRead64_fLen {s : State} (hr : s.wasReset = true) :
    s.busRead64 .fLen = some (s.fLen, s.answer s.toBlock (.data (hiHalf s.fLen))) := by
  rw [busRead64_eq .fLen hr]
  simp only [Pair.hi, Pair.lo, Block.readReg, hiHalf_append_loHalf]

/-- A register write of a host procedure, to any register but CMD. -/
theorem issue_wrInstr {s : State} (r : Reg) (v : Word) (is : List Instr) (hr : s.wasReset = true) (hc : r ≠ .cmd) :
    s.issue (wrInstr r v :: is) = (s.answer (s.toBlock.writeReg r v) .done).issue is := by
  have hd : decode (encode (wrInstr r v)) = .wr r.offset 4 v := by
    apply decode_write
    rintro ⟨h, -⟩
    apply hc
    revert h
    cases r <;> decide
  have : exec (decode (encode (wrInstr r v))) s = .next (s.answer (s.toBlock.writeReg r v) .done) := by
    rw [hd]
    exact exec_wr_reg _ _ _ r _ (servedReg_offset r) hc
  conv_lhs => unfold State.issue
  rw [serve_of_exec hr this]

/-- A command of a host procedure, given what the command leaves. -/
theorem issue_command {s : State} (i : Instr) (b : Block) (is : List Instr) (hr : s.wasReset = true)
    (hd : decode (encode i) = i) (he : exec i s = .next (s.answer b .done)) :
    s.issue (i :: is) = (s.answer b .done).issue is := by
  conv_lhs => unfold State.issue
  rw [serve_of_exec hr (by rw [hd]; exact he)]

@[simp] theorem issue_nil (s : State) : s.issue [] = some s := rfl

theorem issue_cons (i : Instr) (is : List Instr) (s : State) :
    s.issue (i :: is) =
      match s.serve (encode i) with
      | some (.done, t) => t.issue is
      | _ => none := rfl

theorem issue_append (is js : List Instr) (s : State) :
    s.issue (is ++ js) = (s.issue is).bind fun t => t.issue js := by
  induction is generalizing s with
  | nil => rfl
  | cons i is ih =>
    rw [List.cons_append, issue_cons, issue_cons]
    cases s.serve (encode i) with
    | none => rfl
    | some p =>
      obtain ⟨r, t⟩ := p
      cases r with
      | done => exact ih t
      | data v => rfl
      | busError off => rfl

theorem decode_encode_crcByte (b : Byte) : decode (encode (.crcByte b)) = .crcByte b := by
  revert b
  decide +kernel

/-- A stream of CRC_BYTE commands after a command that completed with OK. -/
theorem issue_crcBytes (bs : List Byte) (is : List Instr) {s : State} (hr : s.wasReset = true) (hl : s.last = 0#2)
    (ha : s.argerr = 0#5) (hd : s.resp = some .done) :
    s.issue (bs.map .crcByte ++ is) = (s.answer (s.toBlock.setCrc (crcBytes s.crc bs)) .done).issue is := by
  induction bs generalizing s with
  | nil =>
    have : s.answer (s.toBlock.setCrc (crcBytes s.crc [])) .done = s := by
      obtain ⟨b, port, resp, w, n⟩ := s
      simp only at hd
      subst hd
      rfl
    rw [this]
    rfl
  | cons b bs ih =>
    rw [List.map_cons, List.cons_append, issue_command (.crcByte b) _ _ hr (decode_encode_crcByte b) rfl,
      ih (s := s.answer _ _) hr rfl rfl rfl]
    have : ((s.toBlock.setCrc (crcByte s.crc b)).report .ok 0).setCrc
        (crcBytes ((s.toBlock.setCrc (crcByte s.crc b)).report .ok 0).crc bs)
          = s.toBlock.setCrc (crcBytes s.crc (b :: bs)) := by
      obtain ⟨⟨crc, pver, last, inv, ill, argerr, data, hdr, fVer, fFrag, fLen, fType, fUser⟩, port, resp, w, n⟩ := s
      simp only at hl ha
      subst hl ha
      rfl
    rw [State.answer_answer, State.answer_toBlock, this]

end Sys2Proof.Machine
end

