-- ==== Sys2Proof/Tests/Slice0.lean ====
section
/-!
SUPPORT. Tests of the model against words written out from the encodings of spec/30_encoding.md and against the
vectors of spec/95_test_vectors.md (named at each test), and a witness for the hypotheses of each statement.
-/

namespace Sys2Proof.Tests

open Sys2Proof.Machine

/-- The state after an outcome. -/
def after (o : Host.Outcome State Fault Refusal) : Option State :=
  match o with
  | .next s => some s
  | .fault _ => none
  | .refused _ => none

/-- The reset state with these header operands. -/
def withFields (ver : Word) (len : DWord) (frag type user : Word) : State :=
  { State.reset with fVer := ver, fLen := len, fFrag := frag, fType := type, fUser := user }

/-- What a read of the register returns in a state. -/
def reads (s : State) (r : Reg) : Option Response := (after (exec (rdInstr r) s)).bind (·.resp)

/-! ## Well-formedness: one ill-formed term for each check -/

theorem test_wf_illegal_needs_illegal_word :
    (Instr.illegal 0x00000001#32).wellFormed = false ∧ (Instr.illegal 0x00004102#32).wellFormed = false ∧
    (Instr.illegal 0x00010002#32).wellFormed = true := by decide

theorem test_wf_access_size :
    (Instr.rd 0x10#6 1).wellFormed = false ∧ (Instr.wr 0x0C#6 2 0#32).wellFormed = false ∧
    (Instr.rd 0x10#6 4).wellFormed = true := by decide

theorem test_wf_access_alignment :
    (Instr.rd 0x06#6 4).wellFormed = false ∧ (Instr.wr 0x0D#6 4 0#32).wellFormed = false := by decide

theorem test_wf_access_hole :
    (Instr.rd 0x38#6 4).wellFormed = false ∧ (Instr.wr 0x3C#6 4 1#32).wellFormed = false := by decide

theorem test_wf_write_is_no_command : (Instr.wr 0x00#6 4 1#32).wellFormed = false := by decide

/-! ## Decoding: words written out bit by bit from R42, R44, R45 -/

theorem test_decode_crcInit : decodeCommand 0b000000000000000000000000_00000001#32 = .crcInit := by decide
theorem test_decode_crcByte :
    decodeCommand 0b0000000000000000_10100101_00000010#32 = .crcByte 0b10100101#8 := by decide
theorem test_decode_crcWord : decodeCommand 0b000000000000000000000000_00000011#32 = .crcWord := by decide
theorem test_decode_crcHdr : decodeCommand 0b000000000000000000000000_00000100#32 = .crcHdr := by decide
theorem test_decode_hdrPack : decodeCommand 0b000000000000000000000000_00010000#32 = .hdrPack := by decide
theorem test_decode_hdrPackCfg : decodeCommand 0b000000000000000000000000_00010001#32 = .hdrPackCfg := by decide
theorem test_decode_hdrUnpack : decodeCommand 0b000000000000000000000000_00010010#32 = .hdrUnpack := by decide
theorem test_decode_setPver :
    decodeCommand 0b100000000000000000000010_00100000#32 = .setPver 0b100000000000000000000010#24 := by decide
theorem test_decode_clrStatus : decodeCommand 0b000000000000000000000000_00110000#32 = .clrStatus := by decide
/-- R47: an assigned OP with a reserved bit set, and an unassigned OP. -/
theorem test_decode_illegal :
    decodeCommand 0b000000000000000000000001_00000011#32 = .illegal 0x00000103#32 ∧
    decodeCommand 0b000000000000000000000000_00000101#32 = .illegal 0x00000005#32 := by decide
theorem test_decode_rd : decode ⟨.read, 0b110100#6, 4⟩ = .rd 0x34#6 4 := by decide
theorem test_decode_wr : decode ⟨.write 0xDEADBEEF#32, 0b100100#6, 4⟩ = .wr 0x24#6 4 0xDEADBEEF#32 := by decide
/-- The four bytes of a CMD write, lowest address first (R30), and a list that is no command word (R43). -/
theorem test_decodeBytes :
    (match decodeBytes [0x02#8, 0x41#8, 0x00#8, 0x00#8] with | .ok i => some i | .error _ => none)
      = some (.crcByte 0x41#8) ∧
    (match decodeBytes [0x02#8, 0x41#8] with | .ok _ => none | .error e => some e)
      = some (.notOneCommandWord 2) := by decide
theorem test_tableWord :
    decodeTableWord 32 0x00000220 = some (.setPver 2#24) ∧ decodeTableWord 8 0xFF = some (.illegal 0xFF#32) := by decide

/-! ## The CRC unit (95_test_vectors.md 2.1) -/

/-- V-C1, V-C2, V-C3. -/
theorem test_crcBit :
    crcBit 0xFFFFFFFF#32 false = 0x92477CDF#32 ∧ crcBit 0xFFFFFFFF#32 true = 0x7FFFFFFF#32 ∧
    crcBit 0x00000000#32 true = 0xEDB88320#32 := by decide
/-- V-C5. -/
theorem test_crcInit :
    (after (exec .crcInit { State.reset with crc := 0x12345678#32 })).map (·.crc) = some 0xFFFFFFFF#32 := by decide
/-- V-C8, V-C9. -/
theorem test_crcByte :
    (after (exec (.crcByte 0x41#8) State.reset)).map (·.crc) = some 0x2C266174#32 ∧
    (after (exec (.crcByte 0x80#8) State.reset)).map (·.crc) = some 0xC0459352#32 := by decide +kernel
/-- V-C16. -/
theorem test_crcWord :
    (after (exec .crcWord { State.reset with data := 0x44434241#32 })).map (·.crc) = some 0x24E8DF5A#32 := by
  decide +kernel
/-- V-C20. -/
theorem test_crcHdr :
    (after (exec .crcHdr { State.reset with hdr := 0x0A840000000000E1#64 })).map (·.crc) = some 0x6A9DB138#32 := by
  decide +kernel
/-- S6, the check value. -/
theorem test_crc32_check_value :
    crc32 [0x31#8, 0x32#8, 0x33#8, 0x34#8, 0x35#8, 0x36#8, 0x37#8, 0x38#8, 0x39#8] = 0xCBF43926#32 := by
  decide +kernel

/-! ## The header unit (95_test_vectors.md 2.2, 2.3) -/

/-- V-H1 and V-H3. -/
theorem test_hdrPack :
    (after (exec .hdrPack (withFields 1 14 0 1 42))).map (·.hdr) = some 0x0A840000000000E1#64 ∧
    (after (exec .hdrPack (withFields 15 0x1FFFFFFFFFFF 1 15 1023))).map (·.hdr) = some 0xFFFFFFFFFFFFFFFF#64 := by
  decide +kernel
/-- V-H16: the STATUS word and hdr after two failed checks. -/
theorem test_hdrPack_fails :
    (after (exec .hdrPack (withFields 0xFFFFFFFF 14 0xFFFFFFFF 1 42))).map (fun s => (s.toBlock.statusWord, s.hdr))
      = some (0x00050101#32, 0#64) := by decide +kernel
/-- V-H18. -/
theorem test_hdrPackCfg :
    (after (exec .hdrPackCfg { withFields 99 17 1 3 7 with pver := 2#4 })).map (·.hdr)
      = some 0x01CE000000000112#64 := by decide +kernel
/-- V-H19. -/
theorem test_hdrPackCfg_fails :
    (after (exec .hdrPackCfg (withFields 0 14 2 1 42))).map (·.toBlock.statusWord) = some 0x00040101#32 := by
  decide +kernel
/-- V-U3. -/
theorem test_hdrUnpack :
    (after (exec .hdrUnpack { State.reset with hdr := 0x0123456789ABCDEF#64 })).map (·.toBlock.fields)
      = some ⟨15#32, 0x1456789ABCDE#64, 1#32, 8#32, 4#32⟩ := by decide +kernel

/-! ## Control (95_test_vectors.md 2.4) -/

/-- V-K3. -/
theorem test_setPver : (after (exec (.setPver 15#24) State.reset)).map (·.pver) = some 15#4 := by decide +kernel
/-- V-K4. -/
theorem test_setPver_fails :
    (after (exec (.setPver 16#24) State.reset)).map (fun s => (s.pver, s.toBlock.statusWord))
      = some (1#4, 0x00010101#32) := by decide +kernel
/-- V-K6. -/
theorem test_clrStatus :
    (after (exec .clrStatus { State.reset with last := 1#2, inv := 1#1, argerr := 0x1F#5 })).map (·.toBlock.statusWord)
      = some 0#32 := by decide +kernel
/-- V-K10. -/
theorem test_illegal :
    (after (exec (.illegal 0x00000130#32) { State.reset with last := 1#2, inv := 1#1 })).map (·.toBlock.statusWord)
      = some 0x00000302#32 := by decide +kernel

/-! ## The bus (95_test_vectors.md 2.5, 2.6) -/

/-- V-R2, V-R3, V-B12. -/
theorem test_rd :
    reads State.reset .cfg = some (.data 1#32) ∧ reads State.reset .crcState = some (.data 0xFFFFFFFF#32) ∧
    reads State.reset .crcResult = some (.data 0#32) := by decide +kernel
/-- V-B5, V-B7, V-B8. -/
theorem test_rd_busError :
    (after (exec (.rd 0x10#6 1) State.reset)).bind (·.resp) = some (.busError 0x10#6) ∧
    (after (exec (.rd 0x06#6 4) State.reset)).bind (·.resp) = some (.busError 0x06#6) ∧
    (after (exec (.rd 0x38#6 4) State.reset)).bind (·.resp) = some (.busError 0x38#6) := by decide +kernel
/-- V-B11, the high half of a pair; V-B3, a read-only register. -/
theorem test_wr :
    (after (exec (.wr 0x24#6 4 0xDEADBEEF#32) State.reset)).map (·.fLen) = some 0xDEADBEEF00000000#64 ∧
    (after (exec (.wr 0x08#6 4 0x0F#32) State.reset)).map (·.pver) = some 1#4 := by decide +kernel
/-- V-B10: a one-byte write of 1 to CMD starts no command. -/
theorem test_wr_busError :
    (after (exec (.wr 0x00#6 1 1#32) { State.reset with crc := 5#32 })).map (fun s => (s.crc, s.resp))
      = some (5#32, some (.busError 0#6)) := by decide +kernel

/-! ## Steps -/

/-- One step from reset runs the word that withFetchWord offers (V-K1). -/
theorem test_step_runs_offered_word :
    (after (step (State.reset.withFetchWord 32 0x00000220))).map (·.pver) = some 2#4 := by decide +kernel
/-- R110: a reset with a held CRC_INIT; the held access gets no response. -/
theorem test_step_reset :
    after (step { State.reset with crc := 5#32, resp := some .done, port := [.reset (some (cmdWrite 1#32))] })
      = some State.reset := by decide +kernel

/-! ## The assembler and the host procedures (95_test_vectors.md 2.7) -/

/-- R54: RD64 gives {hi, lo}; the header word of V-H1 in spec/95_test_vectors.md. -/
theorem test_rd64 :
    ((({ State.reset with hdr := 0x0A840000000000E1#64 } : State).runLine (.rd64 .hdr)).map Prod.fst)
      = some (.dword 0x0A840000000000E1#64) := by decide +kernel

/-- R79: code 0 is Ok, and the five kinds have 1 to 5. -/
theorem test_resultCodes :
    (HostResult.ok ()).code = 0 ∧
    ([.invalidArgument, .bufferTooSmall, .payloadTooLarge, .lengthMismatch, .crcMismatch] : List HostError).map
      (fun k => (HostResult.err k : HostResult Unit).code) = [1, 2, 3, 4, 5] := by decide

/-- R53, R54, R55. -/
theorem test_readLine :
    (readLine "CRC_BYTE 0x41").map (fun l => l.accesses) = some [cmdWrite 0x00004102#32] ∧
    (readLine "WR DATA, 0x34333231").map (fun l => l.accesses) = some [⟨.write 0x34333231#32, 0x0C#6, 4⟩] ∧
    readLine "CRC_BYTE 256" = none := by decide +kernel
/-- V-E1 on the block. -/
theorem test_encode_on_block :
    (State.reset.encodePacket (some [0x41#8, 0x42#8]) 0 1 42 0).map Prod.fst
      = some (.ok [0xe1#8, 0#8, 0#8, 0#8, 0#8, 0#8, 0x84#8, 0x0a#8, 0x41#8, 0x42#8, 0x7b#8, 0xf4#8, 0xb6#8, 0x25#8]) := by
  decide +kernel
/-- V-D3 on the block: version 0 is accepted. -/
theorem test_decode_on_block :
    (State.reset.decodePacket
        [0xc0#8, 0#8, 0#8, 0#8, 0#8, 0#8, 0xfe#8, 0xff#8, 0xe0#8, 0xbb#8, 0xb9#8, 0xb8#8]).map Prod.fst
      = some (.ok ⟨0#4, 12, 1#1, 15#4, 1023#10, []⟩) := by decide +kernel

/-! ## Witnesses: a state and operands that meet the hypotheses of a statement -/

/-- V-D2, the minimum packet. -/
def minPacket : List Byte := [0xc1#8, 0#8, 0#8, 0#8, 0#8, 0#8, 0#8, 0#8, 0xc0#8, 0x98#8, 0x2e#8, 0xd3#8]

/-- A state that waits at the port for an access. -/
def waiting (a : Access) : State := { State.reset with port := [.access a] }

theorem witness_AnyMixOfFeedsGivesChecksum :
    State.reset.wasReset = true ∧
    [Feed.word 0x34333231#32, .byte 0x35#8, .header 0#64].flatMap Feed.bytes ≠ [] := by decide +kernel

theorem witness_CrcCommandsShareOnlyStatus :
    ∃ i s s', Safety.isCrcCommand i = true ∧ (s : State).crc = (s' : State).crc ∧ s.data = s'.data ∧ s.hdr = s'.hdr ∧
      s ≠ s' := ⟨.crcHdr, State.reset, { State.reset with pver := 2#4, fVer := 7#32 }, by decide +kernel⟩

theorem witness_OneChangedByteChangesChecksum : (0x41#8 : Byte) ≠ 0x40#8 := by decide

theorem witness_PackIsConcatenationAndSum :
    argcheck ⟨15, 0x1FFFFFFFFFFF, 1, 15, 1023⟩ = 0#5 ∧ argcheck ⟨0, 0, 0, 0, 0⟩ = 0#5 := by decide +kernel

theorem witness_HdrPackChecksThenPacks :
    Safety.InRange 15 (2 ^ 45 - 1) 1 15 1023 ∧ ¬ Safety.InRange 16 0 0 0 0 ∧ ¬ Safety.InRange 0 (2 ^ 45) 0 0 0 ∧
    ¬ Safety.InRange 0 0 2 0 0 ∧ ¬ Safety.InRange 0 0 0 16 0 ∧ ¬ Safety.InRange 0 0 0 0 1024 ∧
    (let s := withFields 15 0x1FFFFFFFFFFF 1 15 1023
     Safety.InRange s.fVer.toNat s.fLen.toNat s.fFrag.toNat s.fType.toNat s.fUser.toNat) := by decide +kernel

theorem witness_HdrPackCfgUsesConfiguredVersion :
    (let s := withFields 99 0x1FFFFFFFFFFF 1 15 1023
     Safety.InRange 0 s.fLen.toNat s.fFrag.toNat s.fType.toNat s.fUser.toNat) ∧
    (let s := withFields 0 0x200000000000 0 0 0
     ¬ Safety.InRange 0 s.fLen.toNat s.fFrag.toNat s.fType.toNat s.fUser.toNat) := by decide +kernel

theorem witness_HeaderPackUnpackRoundTrip :
    ∃ s t : State, exec .hdrPack s = .next t ∧ t.last = 0#2 ∧ argcheck s.toBlock.fields = 0#5 :=
  ⟨withFields 15 0x1FFFFFFFFFFF 1 15 1023, _, rfl, by decide +kernel, by decide +kernel⟩

theorem witness_SetPverChecksThenSets : (15#24).toNat ≤ 15 ∧ 15 < (16#24).toNat ∧ 15 < (0xFFFFFF#24).toNat := by decide

theorem witness_ClrStatusClearsStatus : ∃ t, exec .clrStatus { State.reset with inv := 1#1 } = .next t := ⟨_, rfl⟩

theorem witness_IllegalWordReportsOnly :
    Safety.IllegalWord 0x00000000#32 ∧ Safety.IllegalWord 0x00000130#32 ∧ Safety.IllegalWord 0x00010002#32 ∧
    Safety.IllegalWord 0x000000FF#32 ∧ ¬ Safety.IllegalWord 0x0000FF02#32 ∧ ¬ Safety.IllegalWord 0xFFFFFF20#32 := by
  decide +kernel

theorem witness_FailedCommandChangesOnlyStatus :
    (∃ t, exec (decodeCommand 0x10#32) (withFields 0 0 2 0 0) = .next t ∧ t.last ≠ 0#2) ∧
    (∃ t, exec (decodeCommand 0#32) State.reset = .next t ∧ t.last ≠ 0#2) :=
  ⟨⟨_, rfl, by decide +kernel⟩, ⟨_, rfl, by decide +kernel⟩⟩

/-- One word for each clause of the case list, OP and IMM as numbers. -/
theorem witness_DecoderFollowsCaseList :
    (∀ op ∈ [0x01, 0x03, 0x04, 0x10, 0x11, 0x12, 0x30],
      (BitVec.ofNat 32 op).toNat % 256 = op ∧ (BitVec.ofNat 32 op).toNat / 256 = 0) ∧
    (0x0000FF02#32).toNat % 256 = 0x02 ∧ (0x0000FF02#32).toNat / 256 / 256 = 0 ∧
    (0xFFFFFF20#32).toNat % 256 = 0x20 ∧ Safety.IllegalWord 0x00000101#32 := by decide +kernel

theorem witness_DecodeEncodeIsIdentity :
    (Instr.crcByte 0xFF#8).wellFormed = true ∧ (Instr.setPver 0xFFFFFF#24).wellFormed = true ∧
    (Instr.illegal 0xFFFFFFFF#32).wellFormed = true ∧ (Instr.rd 0x34#6 4).wellFormed = true ∧
    (Instr.wr 0x34#6 4 0#32).wellFormed = true := by decide +kernel

theorem witness_EncodeDecodeIsIdentity :
    (regAt 0x00#6).isSome = true ∧ (regAt 0x34#6).isSome = true ∧ (cmdWrite 1#32).size = 4 := by decide

theorem witness_UnservedAccessIsBusError :
    (0x38#6 : Offset).toNat % 4 = 0 ∧ (0x35#6 : Offset).toNat % 4 ≠ 0 ∧ (0x34#6 : Offset).toNat % 4 = 0 ∧
    (0x34#6 : Offset) ≠ 0x38#6 ∧ (0x34#6 : Offset) ≠ 0x3C#6 ∧ (3 : Nat) ≠ 4 := by decide

theorem witness_OperandRegisterReadsBack : Reg.data ∈ Safety.operandRegs ∧ Reg.fUser ∈ Safety.operandRegs := by decide

theorem witness_OperandWritesIdempotent :
    ∃ t, Reg.fLenHi ∈ Safety.operandRegs ∧ exec (.wr Reg.fLenHi.offset 4 7#32) State.reset = .next t :=
  ⟨_, by decide, rfl⟩

theorem witness_HalfWrittenHeaderIsSeenMixed :
    ∃ t u, exec (.wr 0x10#6 4 0xE1#32) { State.reset with hdr := 0x0A84000000000000#64 } = .next t ∧
      exec .hdrUnpack t = .next u := ⟨_, _, rfl, rfl⟩

theorem witness_WindowBytesAreLittleEndian : (3 : Nat) < 4 ∧ (7 : Nat) < 8 := by decide

theorem witness_AddressWindow :
    (⟨0x1000, 0⟩ : Params).wf ∧ (⟨0x1000, 0⟩ : Params).offsetOf 0x103F = some 0x3F#6 ∧
    (⟨0x1000, 0⟩ : Params).offsetOf 0x1040 = none ∧ (⟨0x1000, 0⟩ : Params).offsetOf 0xFFF = none := by decide

theorem witness_PseudoInstructionsHaveTheirEffect : State.reset.wasReset = true := rfl

theorem witness_StepRunsDecodedAccess :
    (waiting (encode .crcHdr)).port = .access (encode .crcHdr) :: [] ∧ (waiting (encode .crcHdr)).wasReset = true ∧
    Instr.crcHdr.wellFormed = true := ⟨rfl, rfl, rfl⟩

theorem witness_ResetSetsEveryElement :
    ({ State.reset with port := [.reset none] } : State).port = .reset none :: [] := rfl

theorem witness_AccessBeforeResetIsRefused :
    (let s : State := { waiting (cmdWrite 1#32) with wasReset := false }
     s.port = .access (cmdWrite 1#32) :: [] ∧ s.wasReset = false) ∧
    ({ State.reset with crc := 1#32, port := [.reset none] } : State).port = [.reset none] := ⟨⟨rfl, rfl⟩, rfl⟩

theorem witness_PowerLossNeedsReset :
    ({ State.reset with port := [.powerLoss, .access (cmdWrite 1#32)] } : State).port
        = .powerLoss :: [.access (cmdWrite 1#32)] ∧
    ({ State.reset with port := [.powerLoss, .reset none] } : State).port = .powerLoss :: [.reset none] :=
  ⟨rfl, rfl⟩

theorem witness_IdleStepWaits : State.reset.port = [] := rfl

theorem witness_OfferedWordRunsNext : (0 : Nat) < 2 ^ 32 ∧ 2 ^ 32 - 1 < 2 ^ 32 := by decide

theorem witness_ArrivalsServedInOrder :
    (let s : State := { State.reset with port := [.access (cmdWrite 1#32), .reset none, .powerLoss] }
     s.port = [.access (cmdWrite 1#32), .reset none] ++ [.powerLoss] ∧ s.wasReset = true) ∧
    Event.powerLoss ∉ [Event.access (cmdWrite 1#32), .reset none] := by decide +kernel

theorem witness_EveryStepKeepsStatusInvariant :
    ∃ t, Safety.Inv (waiting (cmdWrite 0#32)) ∧ step (waiting (cmdWrite 0#32)) = .next t ∧ t.last = 2#2 :=
  ⟨_, by decide +kernel, rfl, by decide +kernel⟩

theorem witness_PverChangesOnlyBySetPverOrReset :
    (∃ t, step (waiting (cmdWrite 0x0F20#32)) = .next t ∧ t.pver ≠ (waiting (cmdWrite 0x0F20#32)).pver) ∧
    (∃ t, step { State.reset with pver := 2#4, port := [.reset none] } = .next t ∧ t.pver ≠ 2#4) :=
  ⟨⟨_, rfl, by decide +kernel⟩, ⟨_, rfl, by decide +kernel⟩⟩

theorem witness_CrcStateWrittenOnlyByCrcCommands :
    (∃ t, step (waiting (cmdWrite 0x02#32)) = .next t ∧ t.crc ≠ (waiting (cmdWrite 0x02#32)).crc) ∧
    (∃ t, step { State.reset with crc := 5#32, port := [.reset none] } = .next t ∧ t.crc ≠ 5#32) :=
  ⟨⟨_, rfl, by decide +kernel⟩, ⟨_, rfl, by decide +kernel⟩⟩

theorem witness_StickyBitsClearedOnlyByClrStatus :
    (∃ t, step { waiting (cmdWrite 0x30#32) with inv := 1#1 } = .next t ∧ t.inv ≠ 1#1) ∧
    (∃ t, step { waiting (cmdWrite 0x30#32) with ill := 1#1 } = .next t ∧ t.ill ≠ 1#1) ∧
    (∃ t, step { State.reset with inv := 1#1, port := [.reset none] } = .next t ∧ t.inv ≠ 1#1) :=
  ⟨⟨_, rfl, by decide +kernel⟩, ⟨_, rfl, by decide +kernel⟩, ⟨_, rfl, by decide +kernel⟩⟩

theorem witness_CommandsWriteOnlyTheirRegisters :
    (∃ t, exec (decodeCommand 0x10#32) (withFields 1 0 0 0 0) = .next t ∧ t.hdr ≠ State.reset.hdr) ∧
    (∃ t, exec (decodeCommand 0x12#32) { State.reset with hdr := 1#64 } = .next t ∧ t.fVer ≠ State.reset.fVer) :=
  ⟨⟨_, rfl, by decide +kernel⟩, ⟨_, rfl, by decide +kernel⟩⟩

theorem witness_ComputeOnBlockGivesChecksum : State.reset.wasReset = true := rfl

/-- ENCODE on the block: a call that fails and one that succeeds (V-E10, V-E11). -/
theorem witness_EncodeOnBlockMeetsProcedure :
    State.reset.wasReset = true ∧ encodePacket State.reset.pver (some []) 0 0 0 11 = .err .payloadTooLarge ∧
    encodePacket State.reset.pver (some []) 0 0 0 12 = .ok minPacket := by decide +kernel

theorem witness_DecodeOnBlockMeetsProcedure : State.reset.wasReset = true := rfl

theorem witness_HostProceduresReadOnlyPver :
    ∃ s s' : State, s.wasReset = true ∧ s'.wasReset = true ∧ s.pver = s'.pver ∧ s ≠ s' :=
  ⟨State.reset, { State.reset with crc := 1#32, hdr := 9#64 }, by decide +kernel⟩

/-- V-E11. -/
theorem witness_EncodeThenDecodeRoundTrip : encodePacket 1#4 (some []) 0 0 0 12 = .ok minPacket := by decide +kernel

/-- The hypotheses at their boundaries: total length 12 against a maximum of 12 and of 11. -/
theorem witness_EncodeChecksInOrder :
    (1 < 2 ∨ 15 < 0 ∨ 1023 < 0) ∧ (1 ≤ 1 ∧ 15 ≤ 15 ∧ 1023 ≤ 1023) ∧
    ((11 : Nat) ≠ 0 ∧ 11 < ([] : List Byte).length + 12) ∧ (([] : List Byte).length + 12 ≤ 2 ^ 45 - 1) ∧
    ([] : List Byte).length + 12 ≤ 12 := by decide

/-- One buffer for each clause: V-D4 (11 bytes), V-D11, V-D12, a wrong trailer, V-D2. -/
theorem witness_DecodeChecksInOrder :
    (minPacket.take 11).length < 12 ∧ minPacket.length = 12 ∧
    Safety.declaredLength (0xb1#8 :: minPacket.drop 1) = 11 ∧ Safety.declaredLength (0xd1#8 :: minPacket.drop 1) = 13 ∧
    Safety.declaredLength minPacket = minPacket.length ∧
    le32 (minPacket.drop (minPacket.length - 4)) = crc32 (minPacket.take (minPacket.length - 4)) ∧
    (let p := minPacket.take 11 ++ [0xd2#8]
     Safety.declaredLength p = p.length ∧ le32 (p.drop (p.length - 4)) ≠ crc32 (p.take (p.length - 4))) := by
  decide +kernel

/-- Bits 3, 49 and one of the trailer outside the length field, bits 4 and 48 inside it. -/
theorem witness_FlippedBitIsDetected :
    decodePacket minPacket = .ok ⟨1#4, 12, 0#1, 0#4, 0#10, []⟩ ∧
    decodePacket (Safety.flipBit minPacket 0 3) = .err .crcMismatch ∧
    decodePacket (Safety.flipBit minPacket 6 1) = .err .crcMismatch ∧
    decodePacket (Safety.flipBit minPacket 11 7) = .err .crcMismatch ∧
    decodePacket (Safety.flipBit minPacket 0 4) = .err .lengthMismatch ∧
    decodePacket (Safety.flipBit minPacket 0 7) = .err .bufferTooSmall ∧
    decodePacket (Safety.flipBit minPacket 6 0) = .err .lengthMismatch := by decide +kernel

/-- A packet of 12 bytes and one of 14 (V-D1). -/
theorem witness_PaddedOrCutPacketIsRejected :
    (∃ q, decodePacket minPacket = .ok q) ∧ minPacket.length = 12 ∧
    (∃ q, decodePacket
      [0xe1#8, 0#8, 0#8, 0#8, 0#8, 0#8, 0x84#8, 0x0a#8, 0x41#8, 0x42#8, 0x7b#8, 0xf4#8, 0xb6#8, 0x25#8] = .ok q) :=
  ⟨⟨⟨1#4, 12, 0#1, 0#4, 0#10, []⟩, by decide +kernel⟩, rfl,
    ⟨⟨1#4, 14, 0#1, 1#4, 42#10, [0x41#8, 0x42#8]⟩, by decide +kernel⟩⟩

theorem witness_SetProtocolVersionBothWays :
    State.reset.wasReset = true ∧ (15 : Nat) ≤ 15 ∧ 15 < 16 ∧ (0xFFFFFF : Nat) ≤ 0xFFFFFF := by decide

end Sys2Proof.Tests
end

section
/-!
PROOFS. The rules about the state and STATUS (spec/10_state.md): which registers an instruction can change and how, once
for all instructions (`BlockEffect`), lifted to a step of the machine; each whole-machine rule is read off from it.
-/

namespace Sys2Proof.Machine

/-! ## A bus write leaves the registers it has no access to -/

@[simp] theorem Block.writeReg_crc (r : Reg) (v : Word) (b : Block) : (b.writeReg r v).crc = b.crc := by
  cases r <;> rfl
@[simp] theorem Block.writeReg_pver (r : Reg) (v : Word) (b : Block) : (b.writeReg r v).pver = b.pver := by
  cases r <;> rfl
@[simp] theorem Block.writeReg_last (r : Reg) (v : Word) (b : Block) : (b.writeReg r v).last = b.last := by cases r <;> rfl
@[simp] theorem Block.writeReg_inv (r : Reg) (v : Word) (b : Block) : (b.writeReg r v).inv = b.inv := by cases r <;> rfl
@[simp] theorem Block.writeReg_ill (r : Reg) (v : Word) (b : Block) : (b.writeReg r v).ill = b.ill := by cases r <;> rfl
@[simp] theorem Block.writeReg_argerr (r : Reg) (v : Word) (b : Block) : (b.writeReg r v).argerr = b.argerr := by
  cases r <;> rfl

/-! ## Everything an instruction can do to the block -/

/-- What running `i` may leave of the block `b`: the registers written, the result reported, and the instruction that
does it. The values a CRC or header command computes are left open. -/
inductive BlockEffect (i : Instr) (b : Block) : Block → Prop where
  /-- A CRC command (R59 to R62). -/
  | crc (c : Word) (hi : Safety.isCrcCommand i = true) : BlockEffect i b ((b.setCrc c).report .ok 0)
  /-- A pack command whose operands are in range (R66, R67). -/
  | pack (w : DWord) (hi : i = .hdrPack ∨ i = .hdrPackCfg) : BlockEffect i b ((b.setHdr w).report .ok 0)
  /-- HDR_UNPACK (R69). -/
  | unpack (f : Fields) (hi : i = .hdrUnpack) : BlockEffect i b ((b.setFields f).report .ok 0)
  /-- SET_PVER of a version that fits (R73). -/
  | setPver (v : BitVec 24) (hi : i = .setPver v) (hv : v.toNat ≤ 15) :
      BlockEffect i b ((b.setPver (BitVec.ofNat 4 v.toNat)).report .ok 0)
  /-- CLR_STATUS (R74). -/
  | clear (hi : i = .clrStatus) : BlockEffect i b (b.clearSticky.report .ok 0)
  /-- A pack command or SET_PVER whose checks fail, with a nonzero mask (R66, R67, R73). -/
  | badArgument (m : BitVec 5) (hm : m ≠ 0#5) : BlockEffect i b (b.report .invalidArgument m)
  /-- The illegal word (R75). -/
  | illegal : BlockEffect i b (b.report .illegalCommand 0)
  /-- A bus write to a register other than CMD (R32). -/
  | write (off : Offset) (size : Nat) (v : Word) (r : Reg) (hi : i = .wr off size v) : BlockEffect i b (b.writeReg r v)
  /-- A bus read, or an access answered with BusError (R31, R98). -/
  | same : BlockEffect i b b

/-- Both outcomes of a pack command are effects. -/
theorem BlockEffect.of_packFields {i : Instr} (hi : i = .hdrPack ∨ i = .hdrPackCfg) (f : Fields) (b : Block) :
    BlockEffect i b (b.packFields f) := by
  unfold Block.packFields
  split
  case isTrue h => exact .badArgument _ h
  case isFalse => exact .pack _ hi

/-- SET_PVER in one equation, the operand read as a number (R73). -/
theorem exec_setPver (v : BitVec 24) (s : State) :
    exec (.setPver v) s = .next (s.answer
      (if v.toNat ≤ 15 then (s.toBlock.setPver (BitVec.ofNat 4 v.toNat)).report .ok 0
        else s.toBlock.report .invalidArgument 0b00001#5) .done) := by
  have hlow : (pverOperand v).extractLsb' 0 4 = BitVec.ofNat 4 v.toNat := by
    simp [BitVec.extractLsb']
  have hgt : pverOperand v > 15#32 ↔ ¬v.toNat ≤ 15 := by
    simp [BitVec.lt_def]
  show execSetPver v s = _
  simp only [execSetPver, hlow, hgt, ite_not]

/-- Every instruction but a WR to CMD, which is the command it carries, answers with one of the effects. -/
theorem exec_effect (i : Instr) (s : State)
    (hcmd : ∀ off size v, i = .wr off size v → servedReg off size ≠ some .cmd) :
    ∃ b r, exec i s = .next (s.answer b r) ∧ BlockEffect i s.toBlock b := by
  cases i with
  | crcInit => exact ⟨_, _, rfl, .crc _ rfl⟩
  | crcByte b => exact ⟨_, _, rfl, .crc _ rfl⟩
  | crcWord => exact ⟨_, _, rfl, .crc _ rfl⟩
  | crcHdr => exact ⟨_, _, rfl, .crc _ rfl⟩
  | hdrPack => exact ⟨_, _, rfl, .of_packFields (.inl rfl) _ _⟩
  | hdrPackCfg => exact ⟨_, _, rfl, .of_packFields (.inr rfl) _ _⟩
  | hdrUnpack => exact ⟨_, _, rfl, .unpack _ rfl⟩
  | setPver v =>
    refine ⟨_, _, exec_setPver v s, ?_⟩
    split
    case isTrue hv => exact .setPver v rfl hv
    case isFalse => exact .badArgument _ (by decide)
  | clrStatus => exact ⟨_, _, rfl, .clear rfl⟩
  | illegal cmd => exact ⟨_, _, rfl, .illegal⟩
  | rd off size => exact ⟨_, _, exec_rd off size s, .same⟩
  | wr off size v =>
    cases h : servedReg off size with
    | none => exact ⟨_, _, exec_wr_unserved off size v s h, .same⟩
    | some r =>
      have hr : r ≠ .cmd := fun hr => hcmd off size v rfl (hr ▸ h)
      exact ⟨_, _, exec_wr_reg off size v r s h hr, .write off size v r rfl⟩

/-- What an access leaves of the block; nothing else of the state but the response moves. -/
theorem exec_decode_effect {a : Access} {s t : State} (h : exec (decode a) s = .next t) :
    BlockEffect (decode a) s.toBlock t.toBlock ∧ t.wasReset = s.wasReset := by
  obtain ⟨b, r, hb, heff⟩ := exec_effect (decode a) s (decode_ne_wr_cmd a)
  rw [hb] at h
  cases h
  exact ⟨heff, rfl⟩

/-- What a command word leaves of the block. -/
theorem exec_decodeCommand_effect {cmd : Word} {s t : State} (h : exec (decodeCommand cmd) s = .next t) :
    BlockEffect (decodeCommand cmd) s.toBlock t.toBlock := by
  rw [← decode_cmdWrite] at h ⊢
  exact (exec_decode_effect h).1

/-- Everything a completed step can do to the block: nothing, the effect of the access served, reset, or loss of
power. -/
theorem step_effect {s t : State} (h : step s = .next t) :
    t = s ∨
    (∃ a rest, s.port = .access a :: rest ∧ s.wasReset = true ∧ BlockEffect (decode a) s.toBlock t.toBlock) ∨
    (∃ held rest, s.port = .reset held :: rest ∧ t.toBlock = Block.reset) ∨
    (∃ rest, s.port = .powerLoss :: rest ∧ t.wasReset = false) := by
  rcases step_cases h with
    ⟨_, rfl⟩ | ⟨a, rest, _, _, hp, hr, he, _⟩ | ⟨held, rest, hp, rfl⟩ | ⟨rest, hp, rfl⟩
  · exact .inl rfl
  · exact .inr (.inl ⟨a, rest, hp, hr, (exec_decode_effect he).1⟩)
  · exact .inr (.inr (.inl ⟨held, rest, hp, rfl⟩))
  · exact .inr (.inr (.inr ⟨rest, hp, rfl⟩))

/-! ## Which effect changes which register -/

section
variable {i : Instr} {b b' : Block}

theorem BlockEffect.setPver_or_pver_eq (h : BlockEffect i b b') :
    (∃ v, i = .setPver v ∧ v.toNat ≤ 15 ∧ b'.pver = BitVec.ofNat 4 v.toNat) ∨ b'.pver = b.pver := by
  cases h with
  | setPver v hi hv => exact .inl ⟨v, hi, hv, rfl⟩
  | _ => exact .inr (by simp)

theorem BlockEffect.crcCommand_or_crc_eq (h : BlockEffect i b b') :
    Safety.isCrcCommand i = true ∨ b'.crc = b.crc := by
  cases h with
  | crc c hi => exact .inl hi
  | _ => exact .inr (by simp)

theorem BlockEffect.clrStatus_or_sticky (h : BlockEffect i b b') :
    i = .clrStatus ∨ (b.inv = 1#1 → b'.inv = 1#1) ∧ (b.ill = 1#1 → b'.ill = 1#1) := by
  cases h with
  | clear hi => exact .inl hi
  | _ => exact .inr (by simp)

/-! ## STATUS stays consistent -/

theorem statusConsistent_report_ok (b : Block) : Safety.StatusConsistent (b.report .ok 0) := by
  simp [Safety.StatusConsistent, lastCode]

theorem statusConsistent_report_invalidArgument {m : BitVec 5} (hm : m ≠ 0#5) (b : Block) :
    Safety.StatusConsistent (b.report .invalidArgument m) := by
  simp [Safety.StatusConsistent, lastCode, hm]

theorem statusConsistent_report_illegalCommand (b : Block) :
    Safety.StatusConsistent (b.report .illegalCommand 0) := by
  simp [Safety.StatusConsistent, lastCode]

theorem statusConsistent_writeReg (r : Reg) (v : Word) (b : Block) :
    Safety.StatusConsistent (b.writeReg r v) ↔ Safety.StatusConsistent b := by
  simp [Safety.StatusConsistent]

theorem statusConsistent_reset : Safety.StatusConsistent Block.reset := by decide

/-- Every effect keeps STATUS consistent: a command makes it so by its report, a bus access leaves it. -/
theorem BlockEffect.statusConsistent (h : BlockEffect i b b') (hb : Safety.StatusConsistent b) :
    Safety.StatusConsistent b' := by
  cases h with
  | badArgument m hm => exact statusConsistent_report_invalidArgument hm b
  | illegal => exact statusConsistent_report_illegalCommand b
  | write off size v r => exact (statusConsistent_writeReg r v b).2 hb
  | same => exact hb
  | _ => exact statusConsistent_report_ok _

end

/-- Settles O43: a step is idle, an effect on a block that was consistent, a reset, or a power loss, after which the
invariant asks nothing. -/
theorem everyStepKeepsStatusInvariant : Obligations.EveryStepKeepsStatusInvariant := by
  intro s t hinv h ht
  rcases step_effect h with rfl | ⟨a, rest, _, hr, heff⟩ | ⟨held, rest, _, hb⟩ | ⟨rest, _, hr⟩
  · exact hinv ht
  · exact heff.statusConsistent (hinv hr)
  · rw [hb]
    exact statusConsistent_reset
  · rw [hr] at ht
    cases ht

/-- Settles O44: of the effects only SET_PVER's moves `pver`. -/
theorem pverChangesOnlyBySetPverOrReset : Obligations.PverChangesOnlyBySetPverOrReset := by
  intro s t h hne
  rcases step_effect h with rfl | ⟨a, rest, hp, _, heff⟩ | ⟨held, rest, hp, hb⟩ | ⟨rest, hp, _⟩
  · exact absurd rfl hne
  · rcases heff.setPver_or_pver_eq with ⟨v, hv⟩ | heq
    · exact .inl ⟨a, rest, v, hp, hv⟩
    · exact absurd heq hne
  · exact .inr (.inl ⟨held, rest, hp, congrArg Block.pver hb⟩)
  · exact .inr (.inr ⟨rest, hp⟩)

/-- Settles O45: of the effects only a CRC command's moves `crc`. -/
theorem crcStateWrittenOnlyByCrcCommands : Obligations.CrcStateWrittenOnlyByCrcCommands := by
  intro s t h hne
  rcases step_effect h with rfl | ⟨a, rest, hp, _, heff⟩ | ⟨held, rest, hp, hb⟩ | ⟨rest, hp, _⟩
  · exact absurd rfl hne
  · exact .inl ⟨a, rest, hp, heff.crcCommand_or_crc_eq.resolve_right hne⟩
  · exact .inr (.inl ⟨held, rest, hp, congrArg Block.crc hb⟩)
  · exact .inr (.inr ⟨rest, hp⟩)

/-- Settles O46: every effect but CLR_STATUS's leaves a set sticky bit set. -/
theorem stickyBitsClearedOnlyByClrStatus : Obligations.StickyBitsClearedOnlyByClrStatus := by
  intro s t h hcleared
  rcases step_effect h with rfl | ⟨a, rest, hp, _, heff⟩ | ⟨held, rest, hp, _⟩ | ⟨rest, hp, _⟩
  · rcases hcleared with ⟨h1, h0⟩ | ⟨h1, h0⟩ <;> exact absurd h1 h0
  · rcases heff.clrStatus_or_sticky with hclr | ⟨hinv, hill⟩
    · exact .inl ⟨a, rest, hp, hclr⟩
    · rcases hcleared with ⟨h1, h0⟩ | ⟨h1, h0⟩
      · exact absurd (hinv h1) h0
      · exact absurd (hill h1) h0
  · exact .inr (.inl ⟨held, rest, hp⟩)
  · exact .inr (.inr ⟨rest, hp⟩)

/-- Settles O47: the effects a command word can have, one by one; the effect of a bus write is not among them. -/
theorem commandsWriteOnlyTheirRegisters : Obligations.CommandsWriteOnlyTheirRegisters := by
  intro cmd s t h
  have heff := exec_decodeCommand_effect h
  generalize t.toBlock = b' at heff ⊢
  cases heff with
  | pack w hi => exact ⟨rfl, fun _ => ⟨hi, rfl⟩, fun hne => absurd rfl hne⟩
  | unpack f hi => exact ⟨rfl, fun hne => absurd rfl hne, fun _ => hi⟩
  | write off size v r hi => exact absurd hi (decodeCommand_ne_wr cmd off size v)
  | _ => exact ⟨rfl, fun hne => absurd rfl hne, fun hne => absurd rfl hne⟩

/-! ## The word offered at the port -/

/-- The bytes of a 32-bit word of the opcode table, read little-endian, are the word. -/
theorem le32_tableBytes {w : Nat} (hw : w < 2 ^ 32) : le32 (tableBytes 32 w) = BitVec.ofNat 32 w := by
  rw [tableBytes, le32_bytes32, Nat.mod_eq_of_lt hw]

/-- Settles O39: the offered word stands at the front of the port of a block that was reset, and its bytes are the
word. -/
theorem offeredWordRunsNext : Obligations.OfferedWordRunsNext := by
  intro s w hw
  rw [State.withFetchWord, le32_tableBytes hw,
    step_access _ _ s.port (State.offerCommand_port _ s) (State.offerCommand_wasReset _ s), decode_cmdWrite]
  rfl

/-- Settles O38: it is the idle case of a step. -/
theorem idleStepWaits : Obligations.IdleStepWaits := step_idle

/-! ## The STATUS word -/

/-- STATUS as a number: each field at its place (R13). -/
theorem toNat_statusWord (b : Block) :
    b.statusWord.toNat = b.argerr.toNat * 2 ^ 16 + b.ill.toNat * 2 ^ 9 + b.inv.toNat * 2 ^ 8 + b.last.toNat := by
  simp only [Block.statusWord, toNat_append, BitVec.toNat_ofNat]
  omega

/-- Settles O18: every field of the word is a quotient and a remainder of its number. -/
theorem statusWordLayout : Obligations.StatusWordLayout := by
  intro b
  have hlast := b.last.isLt
  have hinv := b.inv.isLt
  have hill := b.ill.isLt
  have hargerr := b.argerr.isLt
  refine ⟨?_, ?_, ?_, ?_, ?_, ?_, ?_⟩ <;> apply BitVec.eq_of_toNat_eq <;>
    simp only [BitVec.extractLsb'_toNat, toNat_statusWord, Nat.shiftRight_eq_div_pow, BitVec.toNat_ofNat] <;> omega

/-! ## Operand registers -/

/-- What was written to an operand register is what it reads (R15). -/
theorem Block.readReg_writeReg_same {r : Reg} (hr : r ∈ Safety.operandRegs) (v : Word) (b : Block) :
    (b.writeReg r v).readReg r = v := by
  simp only [Safety.operandRegs, List.mem_cons, List.not_mem_nil, or_false] at hr
  rcases hr with rfl | rfl | rfl | rfl | rfl | rfl | rfl | rfl | rfl <;> simp [Block.writeReg, Block.readReg]

/-- RD of a register at its own offset. -/
theorem exec_rd_offset (r : Reg) (s : State) :
    exec (.rd r.offset 4) s = .next (s.answer s.toBlock (.data (s.toBlock.readReg r))) := by
  have h := exec_rd r.offset 4 s
  rw [servedReg_offset] at h
  exact h

/-- Settles O28: the write answers with the register written, and the read returns it. -/
theorem operandRegisterReadsBack : Obligations.OperandRegisterReadsBack := by
  intro r hr v s
  have hcmd : r ≠ .cmd := by
    rintro rfl
    exact absurd hr (by decide)
  refine ⟨_, exec_wr_reg _ _ v r s (servedReg_offset r) hcmd, ?_⟩
  rw [exec_rd_offset, State.answer_toBlock, Block.readReg_writeReg_same hr]
  rfl

end Sys2Proof.Machine
end

section
/-!
PROOFS. The decoder and the encoder of bus accesses (spec/20_memory.md R26, spec/30_encoding.md R42 to R47): each undoes
the other, and the decoder's illegal words are those that no row of the opcode table takes.
-/

namespace Sys2Proof

/-! ## Every command word is the encoding of what it decodes to -/

/-- A word is the command word of its OP and its IMM (R42). -/
theorem commandWord_cmdOp_cmdImm (cmd : Word) : commandWord (cmdOp cmd) (cmdImm cmd) = cmd := by
  apply BitVec.eq_of_toNat_eq
  rw [toNat_commandWord, toNat_cmdOp, toNat_cmdImm]
  omega

theorem cmdWrite_commandWord {cmd : Word} {op : Byte} {imm : BitVec 24} (hop : cmdOp cmd = op)
    (himm : cmdImm cmd = imm) : cmdWrite (commandWord op imm) = cmdWrite cmd := by
  rw [← hop, ← himm, commandWord_cmdOp_cmdImm]

/-- The immediate of a CRC_BYTE word whose upper bits are 0 is its byte (R45). -/
theorem zero_append_lowByte {imm : BitVec 24} (h : imm.extractLsb' 8 16 = 0#16) :
    0#16 ++ imm.extractLsb' 0 8 = imm := by
  have hhigh : imm.toNat / 2 ^ 8 % 2 ^ 16 = 0 := by
    simpa [BitVec.extractLsb'_toNat, Nat.shiftRight_eq_div_pow] using congrArg BitVec.toNat h
  have hlt := imm.isLt
  apply BitVec.eq_of_toNat_eq
  simp only [Machine.toNat_append, BitVec.extractLsb'_toNat, BitVec.toNat_ofNat, Nat.shiftRight_zero]
  omega

/-- A command without operand is read only from its own word: with a nonzero IMM the word is illegal, and stays so. -/
theorem encode_ifImmZero {cmd : Word} {op : Byte} {i : Instr} (hop : cmdOp cmd = op)
    (hi : encode i = cmdWrite (commandWord op 0)) : encode (ifImmZero cmd i) = cmdWrite cmd := by
  unfold ifImmZero
  split
  case isTrue => rfl
  case isFalse himm => rw [hi, cmdWrite_commandWord hop (not_not.1 himm)]

/-- The case list of R46, read backwards. -/
theorem encode_decodeCommand (cmd : Word) : encode (decodeCommand cmd) = cmdWrite cmd := by
  unfold decodeCommand
  extract_lets op imm
  split_ifs with hInit hByte hImm hWord hHdr hPack hPackCfg hUnpack hPver hClr
  · exact encode_ifImmZero hInit rfl
  · rfl
  · exact cmdWrite_commandWord hByte (zero_append_lowByte (not_not.1 hImm)).symm
  · exact encode_ifImmZero hWord rfl
  · exact encode_ifImmZero hHdr rfl
  · exact encode_ifImmZero hPack rfl
  · exact encode_ifImmZero hPackCfg rfl
  · exact encode_ifImmZero hUnpack rfl
  · exact cmdWrite_commandWord hPver rfl
  · exact encode_ifImmZero hClr rfl
  · rfl

/-- Every access is the encoding of what it decodes to, served or not. -/
theorem encode_decode (a : Access) : encode (decode a) = a := by
  obtain ⟨kind, off, size⟩ := a
  cases kind with
  | read => rfl
  | write v =>
    by_cases hcmd : off = Reg.cmd.offset ∧ size = 4
    · obtain ⟨rfl, rfl⟩ := hcmd
      exact (congrArg encode (decode_cmdWrite v)).trans (encode_decodeCommand v)
    · rw [decode_write off size v hcmd]
      rfl

/-! ## The decoder and the opcode table -/

/-- Every row but CRC_BYTE and SET_PVER takes one word alone, and the decoder knows that word (R44, R45). -/
theorem opRows_cases : ∀ r ∈ opRows,
    (r.mask = 0xFFFFFFFF#32 ∧ decodeCommand r.value ≠ .illegal r.value) ∨
    r = ⟨"CRC_BYTE", 0xFFFF00FF#32, 0x00000002#32⟩ ∨ r = ⟨"SET_PVER", 0x000000FF#32, 0x00000020#32⟩ := by
  decide

/-- OP is the low byte of the word. -/
theorem cmdOp_eq_of_lowByte {cmd : Word} {op : Byte} (h : cmd &&& 0xFF#32 = op.setWidth 32) : cmdOp cmd = op := by
  rw [← commandWord_cmdOp_cmdImm cmd, lowByte_commandWord] at h
  simpa using congrArg (BitVec.setWidth 8) h

/-- The bits 16 and up of a word of the row CRC_BYTE are 0: the upper bits of IMM (R45). -/
theorem cmdImm_high_of_crcByteRow {cmd : Word} (h : cmd &&& 0xFFFF00FF#32 = 2#32) :
    (cmdImm cmd).extractLsb' 8 16 = 0#16 := by
  have hhigh : (cmd &&& 0xFFFF00FF#32).extractLsb' 16 16 = cmd.extractLsb' 16 16 := by
    rw [BitVec.extractLsb'_and]
    exact BitVec.and_allOnes
  rw [h] at hhigh
  calc (cmdImm cmd).extractLsb' 8 16 = cmd.extractLsb' 16 16 := by
        apply BitVec.eq_of_toNat_eq
        simp only [BitVec.extractLsb'_toNat, toNat_cmdImm, Nat.shiftRight_eq_div_pow]
        omega
    _ = 0#16 := hhigh.symm

theorem decodeCommand_setPver (v : BitVec 24) : decodeCommand (commandWord Const.opSetPver v) = .setPver v := by
  simp [decodeCommand, Const.opCrcInit, Const.opCrcByte, Const.opCrcWord, Const.opCrcHdr, Const.opHdrPack,
    Const.opHdrPackCfg, Const.opHdrUnpack, Const.opSetPver]

/-- A word that some row takes is no illegal word. -/
theorem decodeCommand_ne_illegal {cmd : Word} (h : isCommandWord cmd = true) : decodeCommand cmd ≠ .illegal cmd := by
  obtain ⟨r, hr, hit⟩ := List.any_eq_true.1 h
  have hlow := lowByte_of_hit hr hit
  have hmask : cmd &&& r.mask = r.value := by simpa [OpRow.hit] using hit
  rcases opRows_cases r hr with ⟨hfull, hdec⟩ | rfl | rfl
  · have hcmd : cmd = r.value := by
      rw [← hmask, hfull]
      exact BitVec.and_allOnes.symm
    rw [hcmd]
    exact hdec
  · have hop : cmdOp cmd = Const.opCrcByte := cmdOp_eq_of_lowByte hlow
    simp [decodeCommand, hop, cmdImm_high_of_crcByteRow hmask, Const.opCrcByte, Const.opCrcInit]
  · have hop : cmdOp cmd = Const.opSetPver := cmdOp_eq_of_lowByte hlow
    rw [← commandWord_cmdOp_cmdImm cmd, hop, decodeCommand_setPver]
    simp

/-- An access belongs to the one row of its instruction, whatever the instruction (`Laws.RowMatch` has it for each). -/
theorem rowsOf_encode {i : Instr} (h : i.wellFormed = true) :
    Laws.RowMatch.rowsOf (encode i) = [Laws.RowMatch.mnemonic i] := by
  cases i with
  | crcInit => exact Laws.RowMatch.crcInit h
  | crcByte b => exact Laws.RowMatch.crcByte b h
  | crcWord => exact Laws.RowMatch.crcWord h
  | crcHdr => exact Laws.RowMatch.crcHdr h
  | hdrPack => exact Laws.RowMatch.hdrPack h
  | hdrPackCfg => exact Laws.RowMatch.hdrPackCfg h
  | hdrUnpack => exact Laws.RowMatch.hdrUnpack h
  | setPver v => exact Laws.RowMatch.setPver v h
  | clrStatus => exact Laws.RowMatch.clrStatus h
  | illegal cmd => exact Laws.RowMatch.illegal cmd h
  | rd off size => exact Laws.RowMatch.rd off size h
  | wr off size v => exact Laws.RowMatch.wr off size v h

/-- A command word decodes to itself as an illegal word, or to a well-formed command with a row of its own. -/
theorem decodeCommand_illegal_or_command (cmd : Word) :
    decodeCommand cmd = .illegal cmd ∨
    ((decodeCommand cmd).wellFormed = true ∧ Laws.RowMatch.mnemonic (decodeCommand cmd) ≠ "(illegal)") := by
  rcases decodeCommand_cases cmd with h | ⟨_, h | h | h | h | h | h | h⟩ | ⟨_, h⟩ | h
  · exact .inl h
  all_goals
    rw [h]
    exact .inr ⟨rfl, by simp [Laws.RowMatch.mnemonic]⟩

/-- The decoder sends to illegal exactly the words that no row of the opcode table takes (R46, R47): a word with another
meaning stands in the row of that meaning. -/
theorem decodeCommand_eq_illegal_iff (cmd : Word) : decodeCommand cmd = .illegal cmd ↔ isCommandWord cmd = false := by
  constructor
  · intro h
    by_contra hrow
    exact decodeCommand_ne_illegal (by simpa using hrow) h
  · intro hrow
    refine (decodeCommand_illegal_or_command cmd).resolve_right fun ⟨hwf, hname⟩ => hname ?_
    have hcmd : Laws.RowMatch.rowsOf (cmdWrite cmd) = ["(illegal)"] :=
      rowsOf_encode (i := .illegal cmd) (by simp [Instr.wellFormed, hrow])
    rw [← encode_decodeCommand, rowsOf_encode hwf] at hcmd
    exact List.singleton_inj.1 hcmd

theorem wellFormed_decodeCommand (cmd : Word) : (decodeCommand cmd).wellFormed = true := by
  rcases decodeCommand_illegal_or_command cmd with h | ⟨hwf, _⟩
  · rw [h]
    simpa [Instr.wellFormed] using (decodeCommand_eq_illegal_iff cmd).1 h
  · exact hwf

/-! ## Every well-formed instruction is read back from its access -/

/-- No bit of an encoding is dropped. -/
theorem decode_encode {i : Instr} (h : i.wellFormed = true) : decode (encode i) = i := by
  cases i with
  | crcByte b => exact Machine.decode_encode_crcByte b
  | setPver v => exact (decode_cmdWrite _).trans (decodeCommand_setPver v)
  | illegal cmd =>
    exact (decode_cmdWrite cmd).trans ((decodeCommand_eq_illegal_iff cmd).2 (by simpa [Instr.wellFormed] using h))
  | wr off size v =>
    refine decode_write off size v fun hcmd => ?_
    simp [Instr.wellFormed, hcmd.1] at h
  | _ => rfl

/-! ## Served accesses -/

/-- The register map read backwards: no other offset than a register's own reaches it (R11). -/
theorem regAt_eq_some (off : Offset) (r : Reg) : regAt off = some r ↔ off = r.offset := by
  constructor
  · revert off r
    decide
  · rintro rfl
    exact regAt_offset r

/-- An access of 4 bytes to a register decodes to a well-formed instruction. -/
theorem wellFormed_decode {a : Access} (hsize : a.size = 4) (hreg : (regAt a.off).isSome = true) :
    (decode a).wellFormed = true := by
  obtain ⟨kind, off, size⟩ := a
  obtain ⟨r, hr⟩ := Option.isSome_iff_exists.1 hreg
  obtain rfl : off = r.offset := (regAt_eq_some off r).1 hr
  obtain rfl : size = 4 := hsize
  cases kind with
  | read => simp [Instr.wellFormed]
  | write v =>
    by_cases hcmd : r.offset = Reg.cmd.offset
    · rw [hcmd]
      exact (congrArg Instr.wellFormed (decode_cmdWrite v)).trans (wellFormed_decodeCommand v)
    · rw [decode_write _ _ _ (fun h => hcmd h.1)]
      simp [Instr.wellFormed, hcmd]

/-- Settles O24: the encoder undoes the decoder on every access, and a served access decodes to a well-formed
instruction. -/
theorem encodeDecodeIsIdentity : Obligations.EncodeDecodeIsIdentity :=
  fun a => ⟨encode_decode a, wellFormed_decode⟩

end Sys2Proof
end

section
/-!
PROOFS. The bus and its register window (spec/20_memory.md): what a read and a write of each register do, which accesses
get BusError, the bytes and the addresses of the window, and the service of arrivals in order.
-/

namespace Sys2Proof

/-! ## Offsets and addresses of the window -/

/-- What makes the block answer BusError: a wrong size, a misaligned offset, or a hole (R27, R28, R29). -/
theorem servedReg_eq_none (off : Offset) (size : Nat) :
    servedReg off size = none ↔ size ≠ 4 ∨ off.toNat % 4 ≠ 0 ∨ off = 0x38#6 ∨ off = 0x3C#6 := by
  by_cases hsize : size = 4
  · subst hsize
    revert off
    decide
  · simp [servedReg, hsize]

/-- Every register stands at a multiple of 4 (R11). -/
theorem Reg.offset_aligned (r : Reg) : r.offset &&& 0x3C#6 = r.offset := by
  cases r <;> rfl

/-- A lane of an aligned offset, taken apart again. -/
theorem lane_of_aligned : ∀ off : Offset, off &&& 0x3C#6 = off → ∀ k < 4,
    (off + BitVec.ofNat 6 k) &&& 0x3C#6 = off ∧ (off + BitVec.ofNat 6 k).toNat % 4 = k := by
  decide +kernel

theorem byteOfWord_loHalf (w : DWord) {k : Nat} (hk : k < 4) : byteOfWord (loHalf w) k = byteOfDWord w k := by
  apply BitVec.eq_of_toNat_eq
  rw [toNat_byteOfWord, toNat_byteOfDWord, loHalf, BitVec.extractLsb'_toNat]
  interval_cases k <;> omega

theorem byteOfWord_hiHalf (w : DWord) {k : Nat} (hk : k < 4) : byteOfWord (hiHalf w) k = byteOfDWord w (k + 4) := by
  apply BitVec.eq_of_toNat_eq
  rw [toNat_byteOfWord, toNat_byteOfDWord, hiHalf, BitVec.extractLsb'_toNat, Nat.shiftRight_eq_div_pow]
  interval_cases k <;> omega

/-- Inside the window the distance from BASE is below 0x40, so it is the number of the offset. -/
theorem Params.offsetOf_eq_some (p : Params) (addr : Nat) (off : Offset) :
    p.offsetOf addr = some off ↔ addr = p.base + off.toNat := by
  have hoff := off.isLt
  unfold Params.offsetOf
  split
  case isTrue hin =>
    rw [Option.some_inj, ← BitVec.toNat_inj, BitVec.toNat_ofNat]
    simp only [Const.window] at hin
    omega
  case isFalse hout =>
    simp only [Const.window] at hout
    simp only [reduceCtorEq, false_iff]
    omega

theorem Params.offsetOf_eq_none (p : Params) (addr : Nat) :
    p.offsetOf addr = none ↔ addr < p.base ∨ p.base + 0x3F < addr := by
  unfold Params.offsetOf
  split
  case isTrue hin =>
    simp only [Const.window] at hin
    simp only [reduceCtorEq, false_iff]
    omega
  case isFalse hout =>
    simp only [Const.window] at hout
    simp only [true_iff]
    omega

/-- Settles O32: the two directions of `offsetOf`. -/
theorem addressWindow : Obligations.AddressWindow :=
  fun p addr => ⟨Params.offsetOf_eq_none p addr, Params.offsetOf_eq_some p addr⟩

end Sys2Proof

namespace Sys2Proof.Machine

/-! ## Reads and writes at a register's own offset -/

/-- Settles O25: the table is the list of all registers, each with what it reads. -/
theorem readReturnsRegister : Obligations.ReadReturnsRegister := by
  intro s p hp
  have hmap : p ∈ allRegs.map fun r => (r.offset, s.toBlock.readReg r) := hp
  obtain ⟨r, -, rfl⟩ := List.mem_map.1 hmap
  exact exec_rd_offset r s

/-- WR of a register other than CMD at its own offset. -/
theorem exec_wr_offset {r : Reg} (hr : r ≠ .cmd) (v : Word) (s : State) :
    exec (.wr r.offset 4 v) s = .next (s.answer (s.toBlock.writeReg r v) .done) :=
  exec_wr_reg r.offset 4 v r s (servedReg_offset r) hr

/-- The registers that ignore a write (R32). -/
theorem exec_wr_readOnly {r : Reg} (hr : r ∈ [Reg.status, .cfg, .crcState, .crcResult]) (v : Word) (s : State) :
    exec (.wr r.offset 4 v) s = .next (s.answer s.toBlock .done) := by
  simp only [List.mem_cons, List.not_mem_nil, or_false] at hr
  rcases hr with rfl | rfl | rfl | rfl <;> exact exec_wr_offset (by decide) v s

/-- Settles O26: a register's line of the table is `Block.writeReg` of that register. -/
theorem writeSetsRegister : Obligations.WriteSetsRegister := by
  intro s v
  refine ⟨exec_wr_cmd _ _ v s (servedReg_offset .cmd), ?_, ?_, ?_, ?_, ?_, ?_, ?_, ?_, ?_, ?_⟩
  · intro off hoff
    have hmap : off ∈ [Reg.status, .cfg, .crcState, .crcResult].map Reg.offset := hoff
    obtain ⟨r, hr, rfl⟩ := List.mem_map.1 hmap
    exact exec_wr_readOnly hr v s
  · exact exec_wr_offset (r := .data) (by decide) v s
  · exact exec_wr_offset (r := .hdrLo) (by decide) v s
  · exact exec_wr_offset (r := .hdrHi) (by decide) v s
  · exact exec_wr_offset (r := .fVer) (by decide) v s
  · exact exec_wr_offset (r := .fFrag) (by decide) v s
  · exact exec_wr_offset (r := .fLenLo) (by decide) v s
  · exact exec_wr_offset (r := .fLenHi) (by decide) v s
  · exact exec_wr_offset (r := .fType) (by decide) v s
  · exact exec_wr_offset (r := .fUser) (by decide) v s

/-! ## Accesses the block does not serve -/

/-- A served write is answered OK, whether it starts a command or writes a register (R32). -/
theorem exec_wr_done {off : Offset} {size : Nat} {r : Reg} (h : servedReg off size = some r) (v : Word) (s : State) :
    ∃ b, exec (.wr off size v) s = .next (s.answer b .done) := by
  by_cases hr : r = .cmd
  · subst hr
    rw [exec_wr_cmd off size v s h]
    exact exec_decodeCommand_done v s
  · exact ⟨_, exec_wr_reg off size v r s h hr⟩

/-- Settles O27: an access is served exactly when its size and offset lead to a register. -/
theorem unservedAccessIsBusError : Obligations.UnservedAccessIsBusError := by
  intro off size v s
  constructor
  · intro hbad
    have hnone := (servedReg_eq_none off size).2 hbad
    have hrd := exec_rd off size s
    rw [hnone] at hrd
    exact ⟨hrd, exec_wr_unserved off size v s hnone⟩
  · intro hsize halign h38 h3C
    have hsome : servedReg off size ≠ none := by simp [servedReg_eq_none, hsize, halign, h38, h3C]
    obtain ⟨r, hr⟩ := Option.ne_none_iff_exists'.1 hsome
    have hrd := exec_rd off size s
    rw [hr] at hrd
    obtain ⟨b, hwr⟩ := exec_wr_done hr v s
    exact ⟨⟨_, hrd⟩, ⟨_, hwr, rfl⟩⟩

/-! ## Writing twice, and writing half -/

/-- A second write of the same value finds it there (R34). -/
theorem Block.writeReg_writeReg_same (r : Reg) (v : Word) (b : Block) :
    (b.writeReg r v).writeReg r v = b.writeReg r v := by
  cases r <;> simp [Block.writeReg, Block.setHdr, Block.setData, withLoHalf_withLoHalf, withHiHalf_withHiHalf]

/-- CRC_BYTE run twice leaves two states wherever the accumulator moves a second time (R60). -/
theorem exec_crcByte_twice_ne {b : Byte} {s : State} (hcrc : crcByte (crcByte s.crc b) b ≠ crcByte s.crc b) :
    ∃ t u, exec (.crcByte b) s = .next t ∧ exec (.crcByte b) t = .next u ∧ u ≠ t :=
  ⟨_, _, rfl, rfl, fun h => hcrc (congrArg (fun u : State => u.crc) h)⟩

/-- Settles O29: a write stores and a command computes; after reset the byte 0 moves the accumulator to another value
each time. -/
theorem operandWritesIdempotent : Obligations.OperandWritesIdempotent := by
  refine ⟨fun r hr v s t h => ?_, 0x00#8, State.reset, exec_crcByte_twice_ne (by decide +kernel)⟩
  have hcmd : r ≠ .cmd := by
    rintro rfl
    exact absurd hr (by decide)
  rw [exec_wr_offset hcmd] at h ⊢
  cases h
  rw [State.answer_toBlock, Block.writeReg_writeReg_same, State.answer_answer]

/-- Settles O30: the header the command unpacks is the old high half over the new low half, read as a number. -/
theorem halfWrittenHeaderIsSeenMixed : Obligations.HalfWrittenHeaderIsSeenMixed := by
  intro s t u v ht hu
  have hwr : exec (.wr 0x10#6 4 v) s = .next (s.answer (s.toBlock.setHdr (hiHalf s.hdr ++ v)) .done) :=
    exec_wr_offset (r := .hdrLo) (by decide) v s
  rw [hwr] at ht
  cases ht
  cases hu
  show (unpack (hiHalf s.hdr ++ v)).ver = _ ∧ (unpack (hiHalf s.hdr ++ v)).user = hiHalf s.hdr >>> 22
  have hv := v.isLt
  rw [unpack_eq, toNat_append]
  constructor <;> apply BitVec.eq_of_toNat_eq
  · rw [BitVec.toNat_and, show (0xF#32).toNat = 2 ^ 4 - 1 from rfl, Nat.and_two_pow_sub_one_eq_mod]
    simp only [BitVec.toNat_ofNat, BitVec.toNat_setWidth]
    omega
  · simp only [BitVec.toNat_ofNat, BitVec.toNat_ushiftRight, Nat.shiftRight_eq_div_pow]
    have := (hiHalf s.hdr).isLt
    omega

/-! ## The bytes of the window -/

/-- The byte at lane `k` of a register (R30). -/
theorem Block.byteAt_lane (b : Block) (r : Reg) {k : Nat} (hk : k < 4) :
    b.byteAt (r.offset + BitVec.ofNat 6 k) = some (byteOfWord (b.readReg r) k) := by
  obtain ⟨hbase, hlane⟩ := lane_of_aligned r.offset (Reg.offset_aligned r) k hk
  rw [Block.byteAt, hbase, hlane, regAt_offset]
  rfl

/-- Settles O31: the eight bytes at 0x10 are four lanes of HDR_LO and four of HDR_HI. -/
theorem windowBytesAreLittleEndian : Obligations.WindowBytesAreLittleEndian := by
  refine ⟨fun b r k hk => Block.byteAt_lane b r hk, fun b k hk => ?_⟩
  by_cases hlo : k < 4
  · exact (Block.byteAt_lane b .hdrLo hlo).trans (congrArg some (byteOfWord_loHalf b.hdr hlo))
  · obtain ⟨j, rfl⟩ := Nat.exists_eq_add_of_le' (Nat.le_of_not_lt hlo)
    have hj : j < 4 := by omega
    have hoff : 0x10#6 + BitVec.ofNat 6 (j + 4) = Reg.hdrHi.offset + BitVec.ofNat 6 j := by
      rw [BitVec.ofNat_add, BitVec.add_comm (BitVec.ofNat 6 j), ← BitVec.add_assoc]
      rfl
    rw [hoff]
    exact (Block.byteAt_lane b .hdrHi hj).trans (congrArg some (byteOfWord_hiHalf b.hdr hj))

/-! ## Arrivals -/

/-- Settles O34: the second clause is the first, read through the decoder. -/
theorem stepRunsDecodedAccess : Obligations.StepRunsDecodedAccess := by
  refine ⟨step_access, fun s i rest hwf hp hr => ?_⟩
  rw [step_access s (encode i) rest hp hr, decode_encode hwf]

/-- A step serves the oldest event to completion; unless it is a loss of power, the block stays one that was reset. -/
theorem step_serves_oldest {s : State} {e : Event} {rest : List Event} (hp : s.port = e :: rest)
    (hr : s.wasReset = true) (he : e ≠ .powerLoss) : ∃ t, step s = .next t ∧ t.port = rest ∧ t.wasReset = true := by
  cases e with
  | access a =>
    obtain ⟨b, r, hb⟩ := exec_answers (decode a) { s with port := rest }
    exact ⟨_, (step_access s a rest hp hr).trans hb, rfl, hr⟩
  | reset held => exact ⟨_, step_resetEvent s held rest hp, rfl, rfl⟩
  | powerLoss => exact absurd rfl he

/-- A run whose first step completes goes on from the state it leaves. -/
theorem run_succ_of_step {s t : State} (n : Nat) (h : step s = .next t) :
    Host.Core.run core (n + 1) s = Host.Core.run core n t := by
  have hcore : core.step s = .next t := h
  simp only [Host.Core.run, hcore]

/-- Settles O41: one step for each arrival, by induction on the arrivals. -/
theorem arrivalsServedInOrder : Obligations.ArrivalsServedInOrder := by
  intro first later
  induction first with
  | nil => exact fun s hp hr _ => ⟨s, rfl, hp, hr⟩
  | cons e first ih =>
    intro s hp hr hpower
    obtain ⟨he, hfirst⟩ := not_or.1 (mt List.mem_cons.2 hpower)
    obtain ⟨t, hstep, htp, htr⟩ := step_serves_oldest hp hr (Ne.symm he)
    rw [List.length_cons, run_succ_of_step _ hstep]
    exact ih t htp htr hfirst

end Sys2Proof.Machine
end

section
/-!
PROOFS. The encodings (spec/30_encoding.md): every well-formed instruction is read back from its access, the decoder
against the opcode table and against the case list of R46, and what the pseudo-instructions of R54 do.
-/

namespace Sys2Proof

/-! ## The decoder undoes the encoder -/

/-- Settles O23: instruction by instruction; a CMD write under the name WR is no well-formed instruction. -/
theorem decodeEncodeIsIdentity : Obligations.DecodeEncodeIsIdentity := fun _ h => decode_encode h

/-- Settles O20: eight closed words. -/
theorem specWordsDecode : Obligations.SpecWordsDecode := by
  unfold Obligations.SpecWordsDecode
  decide

/-! ## The opcode table -/

/-- No word is taken by two rows: a row that takes a word has the low byte of the word for its value, and no two rows
have the same value (R46). -/
theorem length_hitRows_le_one (cmd : Word) : (opRows.filter (·.hit cmd)).length ≤ 1 := by
  have hdistinct : (opRows.map (·.value)).Nodup := by decide
  have hsame : ∀ r ∈ opRows.filter (·.hit cmd), r.value = cmd &&& 0xFF#32 := by
    intro r hr
    obtain ⟨hmem, hit⟩ := List.mem_filter.1 hr
    exact (lowByte_of_hit hmem hit).symm
  have hnodup := hdistinct.sublist ((List.filter_sublist (p := (·.hit cmd))).map _)
  rwa [List.map_congr_left hsame, List.map_const', List.nodup_replicate] at hnodup

/-- Settles O21: the illegal words are those that no row takes, and a word has at most one row. -/
theorem decoderAgreesWithOpcodeTable : Obligations.DecoderAgreesWithOpcodeTable :=
  fun cmd => ⟨decodeCommand_eq_illegal_iff cmd, length_hitRows_le_one cmd⟩

/-! ## The case list on OP and IMM as numbers -/

/-- A word with the OP and the IMM that a command encodes to decodes to that command. -/
theorem decodeCommand_eq_of_encode {cmd : Word} {i : Instr} {op : Byte} {imm : BitVec 24}
    (henc : encode i = cmdWrite (commandWord op imm)) (hwf : i.wellFormed = true)
    (hop : cmd.toNat % 256 = op.toNat) (himm : cmd.toNat / 256 = imm.toNat) : decodeCommand cmd = i := by
  have hcmd : commandWord op imm = cmd := by
    apply BitVec.eq_of_toNat_eq
    rw [toNat_commandWord, ← hop, ← himm]
    omega
  rw [← decode_cmdWrite, ← hcmd, ← henc, decode_encode hwf]

/-- A word that decodes to a command has the OP and the IMM of that command's encoding. -/
theorem toNat_of_decodeCommand {cmd : Word} {i : Instr} {op : Byte} {imm : BitVec 24} (hdec : decodeCommand cmd = i)
    (henc : encode i = cmdWrite (commandWord op imm)) :
    cmd.toNat % 256 = op.toNat ∧ cmd.toNat / 256 = imm.toNat := by
  have hcmd : cmdWrite cmd = cmdWrite (commandWord op imm) := by
    rw [← encode_decodeCommand, hdec, henc]
  obtain rfl : cmd = commandWord op imm := by simpa [cmdWrite] using hcmd
  rw [← toNat_cmdOp, ← toNat_cmdImm, cmdOp_commandWord, cmdImm_commandWord]
  exact ⟨rfl, rfl⟩

/-- The immediate of CRC_BYTE is its byte (R45). -/
theorem toNat_zero_append (b : Byte) : (0#16 ++ b).toNat = b.toNat := by
  rw [Machine.toNat_append, BitVec.toNat_ofNat, Nat.zero_mod, Nat.zero_mul, Nat.zero_add]

/-- The word of a command without operand is no illegal word (R46). -/
theorem not_illegalWord_of_noOperand {cmd : Word} {i : Instr} {op : Byte} (hdec : decodeCommand cmd = i)
    (henc : encode i = cmdWrite (commandWord op 0)) (hop : op.toNat ∈ [0x01, 0x03, 0x04, 0x10, 0x11, 0x12, 0x30]) :
    ¬ Safety.IllegalWord cmd := by
  obtain ⟨hcmdOp, hcmdImm⟩ := toNat_of_decodeCommand hdec henc
  have himm : cmd.toNat / 256 = 0 := hcmdImm
  rw [← hcmdOp] at hop
  simp only [Safety.IllegalWord, himm, List.mem_cons, List.not_mem_nil, or_false] at hop ⊢
  omega

/-- The word of CRC_BYTE is no illegal word: its reserved bits are 0 (R45, R46). -/
theorem not_illegalWord_of_crcByte {cmd : Word} {b : Byte} (hdec : decodeCommand cmd = .crcByte b) :
    ¬ Safety.IllegalWord cmd := by
  obtain ⟨hcmdOp, himm⟩ := toNat_of_decodeCommand hdec rfl
  have hop : cmd.toNat % 256 = 0x02 := hcmdOp
  rw [toNat_zero_append] at himm
  have hreserved : cmd.toNat / 256 / 256 = 0 := himm ▸ Nat.div_eq_of_lt b.isLt
  simp [Safety.IllegalWord, hop, hreserved]

/-- The word of SET_PVER is no illegal word, whatever its immediate (R45, R46). -/
theorem not_illegalWord_of_setPver {cmd : Word} {v : BitVec 24} (hdec : decodeCommand cmd = .setPver v) :
    ¬ Safety.IllegalWord cmd := by
  have hop : cmd.toNat % 256 = 0x20 := (toNat_of_decodeCommand hdec rfl).1
  simp [Safety.IllegalWord, hop]

/-- An unassigned OP or a nonzero reserved bit of IMM gives illegal, since no command is left for such a word. -/
theorem decodeCommand_of_illegalWord {cmd : Word} (hill : Safety.IllegalWord cmd) :
    decodeCommand cmd = .illegal cmd := by
  rcases decodeCommand_cases cmd with h | ⟨_, h | h | h | h | h | h | h⟩ | ⟨_, h⟩ | h
  case inl => exact h
  case inr.inr.inl => exact absurd hill (not_illegalWord_of_crcByte h)
  case inr.inr.inr => exact absurd hill (not_illegalWord_of_setPver h)
  all_goals exact absurd hill (not_illegalWord_of_noOperand h rfl (by decide))

/-- Settles O22: a command's clause gives the OP and the IMM it encodes to. -/
theorem decoderFollowsCaseList : Obligations.DecoderFollowsCaseList := by
  intro cmd op imm hop himm
  have hlt : imm < 2 ^ 24 := by
    have := cmd.isLt
    omega
  have hnoOperand {i : Instr} (c : Byte) (henc : encode i = cmdWrite (commandWord c 0)) (hwf : i.wellFormed = true)
      (hc : op = c.toNat) (hzero : imm = 0) : decodeCommand cmd = i :=
    decodeCommand_eq_of_encode henc hwf (hop.symm.trans hc) (himm.symm.trans hzero)
  refine ⟨hnoOperand Const.opCrcInit rfl rfl, fun hc hreserved => ?_, hnoOperand Const.opCrcWord rfl rfl,
    hnoOperand Const.opCrcHdr rfl rfl, hnoOperand Const.opHdrPack rfl rfl, hnoOperand Const.opHdrPackCfg rfl rfl,
    hnoOperand Const.opHdrUnpack rfl rfl, fun hc => ?_, hnoOperand Const.opClrStatus rfl rfl,
    decodeCommand_of_illegalWord⟩
  · refine decodeCommand_eq_of_encode rfl rfl (hop.symm.trans hc) ?_
    rw [toNat_zero_append, BitVec.toNat_ofNat, ← himm]
    omega
  · refine decodeCommand_eq_of_encode rfl rfl (hop.symm.trans hc) ?_
    rw [BitVec.toNat_ofNat, ← himm, Nat.mod_eq_of_lt hlt]

end Sys2Proof

namespace Sys2Proof.Machine

/-! ## The pseudo-instructions of R54 -/

section
variable {s : State}

/-- A line of writes and commands gives no value and leaves what its instructions leave. -/
theorem runWrites_of_issue {l : Asm} {t : State} (h : s.issue l.instrs = some t) :
    s.runWrites l = some (.nothing, t) := by
  simp [State.runWrites, h]

/-- Both halves of the header word written, the low one first. -/
theorem Block.writeReg_hdr_halves (v : DWord) (b : Block) :
    (b.writeReg .hdrLo (loHalf v)).writeReg .hdrHi (hiHalf v) = b.setHdr v := by
  simp [Block.writeReg, Block.setHdr]

/-- Both halves of the total length written, the low one first. -/
theorem Block.writeReg_fLen_halves (v : DWord) (b : Block) :
    (b.writeReg .fLenLo (loHalf v)).writeReg .fLenHi (hiHalf v) = { b with fLen := v } := by
  simp [Block.writeReg]

@[simp] theorem Pair.lo_ne_cmd (p : Pair) : p.lo ≠ .cmd := by cases p <;> decide

@[simp] theorem Pair.hi_ne_cmd (p : Pair) : p.hi ≠ .cmd := by cases p <;> decide

/-- WR64 is the two writes, the low half first (R54). -/
theorem issue_wr64Instrs (p : Pair) (v : DWord) (is : List Instr) (hr : s.wasReset = true) :
    s.issue (wr64Instrs p v ++ is) =
      (s.answer ((s.toBlock.writeReg p.lo (loHalf v)).writeReg p.hi (hiHalf v)) .done).issue is := by
  simp [wr64Instrs, issue_wrInstr, hr]

theorem issue_wr64_hdr (v : DWord) (is : List Instr) (hr : s.wasReset = true) :
    s.issue (wr64Instrs .hdr v ++ is) = (s.answer (s.toBlock.setHdr v) .done).issue is :=
  (issue_wr64Instrs .hdr v is hr).trans (by rw [Pair.lo, Pair.hi, Block.writeReg_hdr_halves])

theorem issue_wr64_fLen (v : DWord) (is : List Instr) (hr : s.wasReset = true) :
    s.issue (wr64Instrs .fLen v ++ is) = (s.answer { s.toBlock with fLen := v } .done).issue is :=
  (issue_wr64Instrs .fLen v is hr).trans (by rw [Pair.lo, Pair.hi, Block.writeReg_fLen_halves])

/-- A stream of at least one CRC_BYTE, whatever STATUS was before it. -/
theorem issue_crcBytes_cons (b : Byte) (bs : List Byte) (hr : s.wasReset = true) :
    s.issue ((b :: bs).map .crcByte) =
      some (s.answer ((s.toBlock.setCrc (crcBytes s.crc (b :: bs))).report .ok 0) .done) := by
  rw [List.map_cons, issue_command (.crcByte b) _ _ hr (decode_encode_crcByte b) rfl,
    ← List.append_nil (bs.map _), issue_crcBytes (s := s.answer _ _) bs [] hr rfl rfl rfl]
  rfl

/-- CRC_WORD32 is the write of DATA and CRC_WORD. -/
theorem issue_crcWord32 (v : Word) (hr : s.wasReset = true) :
    s.issue (Asm.crcWord32 v).instrs =
      some (s.answer (((s.toBlock.setData v).setCrc (crcBytes s.crc (bytes32 v))).report .ok 0) .done) := by
  rw [Asm.instrs, issue_wrInstr .data v _ hr (by decide),
    issue_command (s := s.answer _ _) .crcWord _ _ hr (decode_encode rfl) rfl]
  rfl

/-- FIELDS writes the five operands. -/
theorem issue_fields (f : Fields) (hr : s.wasReset = true) :
    s.issue (Asm.fields f).instrs = some (s.answer (s.toBlock.setFields f) .done) := by
  simp only [Asm.instrs, List.cons_append, issue_wrInstr, issue_wr64_fLen, issue_nil, State.answer_wasReset, hr, ne_eq,
    reduceCtorEq, not_false_eq_true]
  rfl

end

/-- Settles O33: each line is the writes, reads and commands it stands for, one after the other. -/
theorem pseudoInstructionsHaveTheirEffect : Obligations.PseudoInstructionsHaveTheirEffect := by
  intro s hr
  refine ⟨fun v => ?_, fun v => ?_, ?_, ?_, rfl, fun b bs => ?_, fun v => ?_, fun f => ?_⟩
  · exact runWrites_of_issue (l := .wr64 .hdr v) (issue_wr64_hdr v [] hr)
  · exact runWrites_of_issue (l := .wr64 .fLen v) (issue_wr64_fLen v [] hr)
  · rw [State.runLine, busRead64_hdr hr]
    rfl
  · rw [State.runLine, busRead64_fLen hr]
    rfl
  · exact runWrites_of_issue (l := .crcBytes (b :: bs)) (issue_crcBytes_cons b bs hr)
  · exact runWrites_of_issue (l := .crcWord32 v) (issue_crcWord32 v hr)
  · exact runWrites_of_issue (l := .fields f) (issue_fields f hr)

end Sys2Proof.Machine
end

section
/-!
PROOFS. The CRC unit (spec/40_crc.md): the equivalent form of the byte step and why no step loses information, the whole
next state of each CRC command, and the checksum of a byte stream fed in pieces.
-/

namespace Sys2Proof.Machine

/-! ## The bit step -/

/-- Settles O1: bit 0 of the accumulator and the input bit differ exactly when their XOR is 1. -/
theorem crcBitIsReflectedShiftStep : Obligations.CrcBitIsReflectedShiftStep := by
  intro c d
  simp only [crcBit, Bool.xor_iff_ne]
  rfl

/-- A word is its bit 0 and the word shifted right by one. -/
theorem eq_of_bit_zero_of_shift {c c' : Word} (hbit : c.getLsbD 0 = c'.getLsbD 0) (hshift : c >>> 1 = c' >>> 1) :
    c = c' := by
  apply BitVec.eq_of_getLsbD_eq
  intro i _
  cases i with
  | zero => exact hbit
  | succ i => simpa [Nat.add_comm 1 i] using congrArg (·.getLsbD i) hshift

/-- The bit fed back stays readable at bit 31, so the shift can be undone. -/
theorem crcBit_injective (d : Bool) : Function.Injective (crcBit · d) := by
  intro c c' (h : crcBit c d = crcBit c' d)
  have hbit : c.getLsbD 0 = c'.getLsbD 0 := by
    have htop : (crcBit c d).getLsbD 31 = (crcBit c' d).getLsbD 31 := congrArg (·.getLsbD 31) h
    rwa [crcBit_top, crcBit_top, Bool.xor_left_inj] at htop
  refine eq_of_bit_zero_of_shift hbit ?_
  simp only [crcBit, hbit] at h
  split at h
  case isTrue => exact (BitVec.xor_left_inj _).1 h
  case isFalse => exact h

/-! ## The equivalent form of the byte step (R57) -/

theorem crcShift_succ (n : Nat) (c : Word) : Safety.crcShift (n + 1) c = Safety.crcShift n (crcBit c false) := by
  rw [crcBit, Bool.xor_false]
  rfl

/-- Input bits XORed into the accumulator beforehand: bit 0 is consumed by this step, the others move up to it. -/
theorem crcBit_xor (c w : Word) : crcBit (c ^^^ w) false = crcBit c (w.getLsbD 0) ^^^ (w >>> 1) := by
  simp only [crcBit, BitVec.getLsbD_xor, Bool.xor_false, BitVec.ushiftRight_xor_distrib]
  split
  case isTrue => ac_rfl
  case isFalse => rfl

theorem crcShift_injective (n : Nat) : Function.Injective (Safety.crcShift n) := by
  induction n with
  | zero => exact Function.injective_id
  | succ n ih =>
    intro c c' h
    rw [crcShift_succ, crcShift_succ] at h
    exact crcBit_injective false (ih h)

/-- The byte step takes the bits of the byte one by one, or XORs them in first (R57). -/
theorem crcByte_eq_crcShift (c : Word) (b : Byte) : crcByte c b = Safety.crcShift 8 (c ^^^ b.setWidth 32) := by
  have hconsumed : b.setWidth 32 >>> 8 = 0#32 := by
    apply BitVec.eq_of_toNat_eq
    rw [BitVec.toNat_ushiftRight, BitVec.toNat_setWidth_of_le (by decide), Nat.shiftRight_eq_div_pow]
    exact Nat.div_eq_of_lt b.isLt
  simp only [crcShift_succ, crcBit_xor, BitVec.getLsbD_ushiftRight, ← BitVec.shiftRight_add, Nat.reduceAdd, hconsumed,
    BitVec.xor_zero]
  simp [crcByte, Safety.crcShift]

theorem crcByte_left_injective (b : Byte) : Function.Injective (crcByte · b) := by
  intro c c' (h : crcByte c b = crcByte c' b)
  rw [crcByte_eq_crcShift, crcByte_eq_crcShift] at h
  exact (BitVec.xor_left_inj _).1 (crcShift_injective 8 h)

theorem crcByte_right_injective (c : Word) : Function.Injective (crcByte c) := by
  intro b b' h
  rw [crcByte_eq_crcShift, crcByte_eq_crcShift] at h
  have hwide : b.setWidth 32 = b'.setWidth 32 := (BitVec.xor_right_inj _).1 (crcShift_injective 8 h)
  simpa using congrArg (BitVec.setWidth 8) hwide

/-! ## Byte sequences (R58) -/

/-- Accumulators that differ still differ after any bytes they both absorb. -/
theorem crcBytes_left_injective (bs : List Byte) : Function.Injective (crcBytes · bs) := by
  induction bs with
  | nil => exact Function.injective_id
  | cons b bs ih => exact ih.comp (crcByte_left_injective b)

/-- Settles O9: the byte step separates the two bytes, and what follows them never brings the accumulators together. -/
theorem oneChangedByteChangesChecksum : Obligations.OneChangedByteChangesChecksum := by
  intro before after b b' hne heq
  rw [crc32_eq, crc32_eq, BitVec.not_inj, crcBytes_append, crcBytes_append, crcBytes_cons, crcBytes_cons] at heq
  exact hne (crcByte_right_injective _ (crcBytes_left_injective after heq))

/-- Settles O6: the fold of R58 over one more byte. -/
theorem checksumExtendsByteByByte : Obligations.ChecksumExtendsByteByByte := by
  refine ⟨by decide, fun bs b => ?_⟩
  rw [crc32_eq, crc32_eq, crcBytes_append, BitVec.not_not, crcBytes_cons, crcBytes_nil]

/-! ## The whole next state of each command (R59 to R62) -/

theorem exec_crcInit (s : State) :
    exec .crcInit s = .next { s with crc := Const.crcInitValue, last := 0#2, argerr := 0#5, resp := some .done } := rfl

theorem exec_crcByte (b : Byte) (s : State) :
    exec (.crcByte b) s =
      .next { s with crc := crcByte s.crc b, last := 0#2, argerr := 0#5, resp := some .done } := rfl

theorem exec_crcWord (s : State) :
    exec .crcWord s =
      .next { s with crc := crcBytes s.crc (bytes32 s.data), last := 0#2, argerr := 0#5, resp := some .done } := rfl

theorem exec_crcHdr (s : State) :
    exec .crcHdr s =
      .next { s with crc := crcBytes s.crc (bytes64 s.hdr), last := 0#2, argerr := 0#5, resp := some .done } := rfl

/-- Settles O2. -/
theorem crcInitLoadsInitialValue : Obligations.CrcInitLoadsInitialValue := exec_crcInit

/-- Settles O3: the bit steps are the byte step written out, and R57's form of it is equal. -/
theorem crcByteAbsorbsByteLsbFirst : Obligations.CrcByteAbsorbsByteLsbFirst := by
  refine fun b s => ⟨exec_crcByte b s, ?_⟩
  rw [exec_crcByte, crcByte_eq_crcShift]

/-- Settles O4: `bytes32` lists the four bytes in the order of R61; each CRC_BYTE goes on from the state before it. -/
theorem crcWordAbsorbsDataLowByteFirst : Obligations.CrcWordAbsorbsDataLowByteFirst :=
  fun s => ⟨exec_crcWord s, _, _, _, _, exec_crcByte _ _, exec_crcByte _ _, exec_crcByte _ _, exec_crcByte _ _,
    exec_crcWord s⟩

/-- Settles O5: `bytes64` lists the eight bytes in wire order. -/
theorem crcHdrAbsorbsHeaderInWireOrder : Obligations.CrcHdrAbsorbsHeaderInWireOrder := exec_crcHdr

/-- Settles O8: each command's equation names no more of the state than `crc`, `data` and `hdr`. -/
theorem crcCommandsShareOnlyStatus : Obligations.CrcCommandsShareOnlyStatus := by
  intro i hi s s' hcrc hdata hhdr
  cases i with
  | crcInit => exact ⟨_, exec_crcInit s, exec_crcInit s'⟩
  | crcByte b => exact ⟨_, exec_crcByte b s, hcrc ▸ exec_crcByte b s'⟩
  | crcWord => exact ⟨_, exec_crcWord s, hcrc ▸ hdata ▸ exec_crcWord s'⟩
  | crcHdr => exact ⟨_, exec_crcHdr s, hcrc ▸ hhdr ▸ exec_crcHdr s'⟩
  | _ => cases hi

/-! ## A byte stream fed in pieces (R63) -/

section
variable {s : State}

/-- The accesses of a piece are served with OK, and the accumulator absorbs the bytes of the piece. -/
theorem issue_feed (f : Feed) (hr : s.wasReset = true) :
    ∃ t, s.issue f.instrs = some t ∧ t.wasReset = true ∧ t.crc = crcBytes s.crc f.bytes := by
  cases f with
  | byte b => exact ⟨_, issue_crcBytes_cons b [] hr, hr, rfl⟩
  | word v => exact ⟨_, issue_crcWord32 v hr, hr, rfl⟩
  | header w =>
    exact ⟨_, (issue_wr64_hdr w [.crcHdr] hr).trans
      (issue_command (s := s.answer _ _) .crcHdr _ [] hr (decode_encode rfl) rfl), hr, rfl⟩

/-- Pieces one after the other: the accumulator absorbs their bytes in order. -/
theorem issue_feeds (fs : List Feed) (hr : s.wasReset = true) :
    ∃ t, s.issue (fs.flatMap Feed.instrs) = some t ∧ t.wasReset = true ∧
      t.crc = crcBytes s.crc (fs.flatMap Feed.bytes) := by
  induction fs generalizing s with
  | nil => exact ⟨s, rfl, hr, rfl⟩
  | cons f fs ih =>
    obtain ⟨t, hissue, htr, htc⟩ := issue_feed f hr
    obtain ⟨u, hissues, hur, huc⟩ := ih htr
    refine ⟨u, ?_, hur, ?_⟩
    · rw [List.flatMap_cons, issue_append, hissue, Option.bind_some, hissues]
    · rw [List.flatMap_cons, crcBytes_append, ← htc, huc]

end

/-- Settles O7: CRC_INIT loads the initial value, the pieces are absorbed from there, and CRC_RESULT reads the
complement. -/
theorem anyMixOfFeedsGivesChecksum : Obligations.AnyMixOfFeedsGivesChecksum := by
  intro fs s hr
  obtain ⟨t, hissue, htr, htc⟩ :=
    issue_feeds (s := s.answer ((s.toBlock.setCrc Const.crcInitValue).report .ok 0) .done) fs hr
  have hresult : t.toBlock.readReg .crcResult = crc32 (fs.flatMap Feed.bytes) := congrArg (~~~·) htc
  rw [State.checksum, issue_command .crcInit _ _ hr (decode_encode rfl) rfl, hissue, Option.bind_some,
    busRead_eq .crcResult htr, hresult]
  exact ⟨_, rfl⟩

end Sys2Proof.Machine
end

section
/-!
PROOFS. The header unit (spec/41_header.md): packing as concatenation and as a sum, packing and unpacking as inverses of
each other, and the whole next state of each header command.
-/

namespace Sys2Proof.Machine

/-! ## The range checks (R64) -/

/-- The checks pass exactly when every operand is in range as a number. -/
theorem argcheck_eq_zero (f : Fields) :
    argcheck f = 0#5 ↔ Safety.InRange f.ver.toNat f.len.toNat f.frag.toNat f.type.toNat f.user.toNat := by
  rw [argcheck_eq_rangeMask, rangeMask_eq_zero]

@[simp] theorem toNat_fieldsCfg_ver (b : Block) : b.fieldsCfg.ver.toNat = b.pver.toNat :=
  BitVec.toNat_setWidth_of_le (by decide)

/-- CFG.PVER is always in range as a version, so its check never sets a bit of the mask (R67). -/
theorem argcheck_fieldsCfg (b : Block) :
    argcheck b.fieldsCfg = Safety.rangeMask 0 b.fLen.toNat b.fFrag.toNat b.fType.toNat b.fUser.toNat := by
  have hver : ¬15 < b.fieldsCfg.ver.toNat := by
    have := b.pver.isLt
    rw [toNat_fieldsCfg_ver]
    omega
  rw [argcheck_eq_rangeMask, Safety.rangeMask, if_neg hver]
  rfl

/-! ## Packing (R65) -/

/-- A concatenation is the OR of its parts, the upper one shifted past the lower. -/
theorem setWidth_append_eq_or (w : Nat) {m n : Nat} (x : BitVec m) (y : BitVec n) :
    (x ++ y).setWidth w = y.setWidth w ||| (x.setWidth w <<< n) := by
  apply BitVec.eq_of_getLsbD_eq
  intro i hi
  simp only [BitVec.getLsbD_setWidth, BitVec.getLsbD_append, BitVec.getLsbD_or, BitVec.getLsbD_shiftLeft]
  by_cases hlow : i < n
  · simp [hlow]
  · have hx : i - n < w := by omega
    have hy : y.getLsbD i = false := BitVec.getLsbD_of_ge y i (by omega)
    simp [hlow, hi, hx, hy]

/-- The OR of the shifted fields is their concatenation, whatever the operands. -/
theorem pack_eq_append (f : Fields) :
    pack f = f.user.extractLsb' 0 10 ++ f.type.extractLsb' 0 4 ++ f.frag.extractLsb' 0 1 ++ f.len.extractLsb' 0 45
      ++ f.ver.extractLsb' 0 4 := by
  symm
  refine (BitVec.setWidth_eq _).symm.trans ?_
  rw [setWidth_append_eq_or, setWidth_append_eq_or, setWidth_append_eq_or, setWidth_append_eq_or]
  simp only [BitVec.shiftLeft_or_distrib, ← BitVec.shiftLeft_add, ← BitVec.or_assoc, pack]

/-- In-range operands are equal to the bits taken from them, so each is added at its place. -/
theorem toNat_pack {f : Fields} (h : argcheck f = 0#5) :
    (pack f).toNat = f.ver.toNat + f.len.toNat * 2 ^ 4 + f.frag.toNat * 2 ^ 49 + f.type.toNat * 2 ^ 50
      + f.user.toNat * 2 ^ 54 := by
  obtain ⟨hver, hlen, hfrag, htype, huser⟩ := (argcheck_eq_zero f).1 h
  simp only [pack_eq_append, toNat_append, BitVec.extractLsb'_toNat, Nat.shiftRight_zero]
  omega

/-- Settles O10: the first form is the definition of `pack`. -/
theorem packIsConcatenationAndSum : Obligations.PackIsConcatenationAndSum :=
  fun f h => ⟨rfl, pack_eq_append f, toNat_pack h⟩

/-! ## Packing and unpacking are inverse to each other (R68, R70) -/

/-- Every header word gives in-range fields. -/
theorem argcheck_unpack (w : DWord) : argcheck (unpack w) = 0#5 := by
  have := w.isLt
  simp only [argcheck_eq_zero, unpack_eq, BitVec.toNat_ofNat]
  omega

theorem unpack_pack {f : Fields} (h : argcheck f = 0#5) : unpack (pack f) = f := by
  obtain ⟨ver, len, frag, type, user⟩ := f
  have hrange : Safety.InRange ver.toNat len.toNat frag.toNat type.toNat user.toNat := (argcheck_eq_zero _).1 h
  rw [unpack_eq, toNat_pack h, Fields.mk.injEq]
  refine ⟨?_, ?_, ?_, ?_, ?_⟩ <;> apply BitVec.eq_of_toNat_eq <;> simp only [BitVec.toNat_ofNat] <;> omega

@[simp] theorem pack_unpack (w : DWord) : pack (unpack w) = w := by
  have := w.isLt
  apply BitVec.eq_of_toNat_eq
  rw [toNat_pack (argcheck_unpack w), unpack_eq]
  simp only [BitVec.toNat_ofNat]
  omega

/-! ## What the commands do (R66, R67, R69) -/

theorem exec_hdrPack (s : State) :
    exec .hdrPack s = .next (s.answer (s.toBlock.packFields s.toBlock.fields) .done) := rfl

theorem exec_hdrPackCfg (s : State) :
    exec .hdrPackCfg s = .next (s.answer (s.toBlock.packFields s.toBlock.fieldsCfg) .done) := rfl

theorem exec_hdrUnpack (s : State) :
    exec .hdrUnpack s = .next (s.answer ((s.toBlock.setFields (unpack s.hdr)).report .ok 0) .done) := rfl

section
variable {f : Fields}

theorem Block.packFields_of_valid (h : argcheck f = 0#5) (b : Block) :
    b.packFields f = (b.setHdr (pack f)).report .ok 0 := if_neg (not_not.2 h)

theorem Block.packFields_of_invalid (h : argcheck f ≠ 0#5) (b : Block) :
    b.packFields f = b.report .invalidArgument (argcheck f) := if_pos h

/-- STATUS.LAST tells whether the checks passed. -/
theorem Block.argcheck_of_packFields_last {b : Block} (h : (b.packFields f).last = 0#2) : argcheck f = 0#5 := by
  by_contra hinvalid
  rw [Block.packFields_of_invalid hinvalid, Block.report_last] at h
  exact absurd h (by decide)

/-- The whole next state of a pack command whose operands are in range. -/
theorem answer_packFields_of_valid (h : argcheck f = 0#5) (s : State) :
    s.answer (s.toBlock.packFields f) .done =
      { s with
        hdr := BitVec.ofNat 64 (f.ver.toNat + f.len.toNat * 2 ^ 4 + f.frag.toNat * 2 ^ 49 + f.type.toNat * 2 ^ 50
          + f.user.toNat * 2 ^ 54)
        last := 0#2, argerr := 0#5, resp := some .done } := by
  rw [Block.packFields_of_valid h, ← toNat_pack h, BitVec.ofNat_toNat, BitVec.setWidth_eq]
  rfl

/-- The whole next state of a pack command with an operand out of range. -/
theorem answer_packFields_of_invalid (h : argcheck f ≠ 0#5) (s : State) :
    s.answer (s.toBlock.packFields f) .done =
      { s with last := 1#2, inv := 1#1, argerr := argcheck f, resp := some .done } := by
  rw [Block.packFields_of_invalid h]
  rfl

end

@[simp] theorem Block.fields_report (k : ResultKind) (m : BitVec 5) (b : Block) : (b.report k m).fields = b.fields := rfl

@[simp] theorem Block.fields_setFields (f : Fields) (b : Block) : (b.setFields f).fields = f := rfl

/-- HDR_PACK after fields that came from a header word: they pass the checks and give the word back. -/
theorem exec_hdrPack_of_unpacked {s : State} {w : DWord} (h : s.toBlock.fields = unpack w) :
    exec .hdrPack s = .next (s.answer ((s.toBlock.setHdr w).report .ok 0) .done) := by
  rw [exec_hdrPack, h, Block.packFields_of_valid (argcheck_unpack w), pack_unpack]

/-- Settles O14: `unpack_pack` and `pack_unpack`, as functions and for the operands the commands leave. -/
theorem headerPackUnpackRoundTrip : Obligations.HeaderPackUnpackRoundTrip := by
  refine ⟨fun f h => unpack_pack h, fun w => ⟨argcheck_unpack w, pack_unpack w⟩, fun s t hexec hlast => ?_, fun s => ?_⟩
  · rw [exec_hdrPack] at hexec
    cases hexec
    have hvalid : argcheck s.toBlock.fields = 0#5 := Block.argcheck_of_packFields_last hlast
    have hfields : unpack (s.toBlock.packFields s.toBlock.fields).hdr = s.toBlock.fields := by
      rw [Block.packFields_of_valid hvalid, Block.report_hdr, Block.setHdr_hdr, unpack_pack hvalid]
    exact ⟨_, exec_hdrUnpack _, congrArg Fields.ver hfields, congrArg Fields.len hfields, congrArg Fields.frag hfields,
      congrArg Fields.type hfields, congrArg Fields.user hfields⟩
  · have hfields : ((s.toBlock.setFields (unpack s.hdr)).report .ok 0).fields = unpack s.hdr := by
      rw [Block.fields_report, Block.fields_setFields]
    exact ⟨_, _, exec_hdrUnpack s, exec_hdrPack_of_unpacked hfields, rfl, rfl⟩

/-- Settles O11: the operands are in range exactly when the mask is 0. -/
theorem hdrPackChecksThenPacks : Obligations.HdrPackChecksThenPacks := by
  intro s
  have hrange := argcheck_eq_zero s.toBlock.fields
  rw [exec_hdrPack]
  refine ⟨fun h => ?_, fun h => ?_⟩
  · rw [answer_packFields_of_valid (hrange.2 h)]
    rfl
  · rw [answer_packFields_of_invalid (mt hrange.1 h), argcheck_eq_rangeMask]
    rfl

/-- Settles O12: as HDR_PACK, with the mask of `argcheck_fieldsCfg`. -/
theorem hdrPackCfgUsesConfiguredVersion : Obligations.HdrPackCfgUsesConfiguredVersion := by
  intro s
  have hrange := rangeMask_eq_zero 0 s.fLen.toNat s.fFrag.toNat s.fType.toNat s.fUser.toNat
  rw [← argcheck_fieldsCfg] at hrange
  rw [exec_hdrPackCfg]
  refine ⟨fun h => ?_, fun h => ?_⟩
  · rw [answer_packFields_of_valid (hrange.2 h), toNat_fieldsCfg_ver]
    rfl
  · rw [answer_packFields_of_invalid (mt hrange.1 h), argcheck_fieldsCfg]

/-- Settles O13: `unpack` takes each field as a quotient and a remainder of the number of `hdr`. -/
theorem hdrUnpackExtractsFields : Obligations.HdrUnpackExtractsFields := by
  intro s
  rw [exec_hdrUnpack, unpack_eq]
  rfl

end Sys2Proof.Machine
end

section
/-!
PROOFS. The control commands and the illegal word (spec/42_control.md): the whole next state of each.
-/

namespace Sys2Proof.Machine

/-- Settles O15: `exec_setPver`, one clause for each branch of its check. -/
theorem setPverChecksThenSets : Obligations.SetPverChecksThenSets := by
  intro v s
  refine ⟨fun hfits => ?_, fun hlarge => ?_⟩
  · rw [exec_setPver, if_pos hfits]
    rfl
  · rw [exec_setPver, if_neg (Nat.not_le_of_lt hlarge)]
    rfl

theorem exec_illegal (cmd : Word) (s : State) :
    exec (.illegal cmd) s = .next (s.answer (s.toBlock.report .illegalCommand 0) .done) := rfl

/-- Settles O17: a word that R46 sends to illegal decodes to the illegal instruction. -/
theorem illegalWordReportsOnly : Obligations.IllegalWordReportsOnly := by
  refine ⟨exec_illegal, fun cmd s hill => ?_⟩
  rw [decodeCommand_of_illegalWord hill]
  exact exec_illegal cmd s

theorem exec_clrStatus (s : State) :
    exec .clrStatus s = .next (s.answer (s.toBlock.clearSticky.report .ok 0) .done) := rfl

/-- After CLR_STATUS every field of STATUS is 0, and so is the word read (R74). -/
@[simp] theorem Block.readReg_status_report_clearSticky (b : Block) :
    (b.clearSticky.report .ok 0).readReg .status = 0#32 := by
  show (b.clearSticky.report .ok 0).statusWord = 0#32
  apply BitVec.eq_of_toNat_eq
  simp [toNat_statusWord, lastCode]

/-- Settles O16: STATUS is read from the block that CLR_STATUS leaves. -/
theorem clrStatusClearsStatus : Obligations.ClrStatusClearsStatus := by
  intro s
  refine ⟨exec_clrStatus s, fun t hexec => ?_⟩
  rw [exec_clrStatus] at hexec
  cases hexec
  have hread := exec_rd_offset .status (s.answer (s.toBlock.clearSticky.report .ok 0) .done)
  rw [State.answer_toBlock, Block.readReg_status_report_clearSticky] at hread
  exact hread

end Sys2Proof.Machine
end

section
/-!
PROOFS. ENCODE and DECODE as functions on buffers (spec/43_host_procedures.md R81 to R94): one lemma per outcome of each
procedure's checks, on numbers; then that they are inverse to each other and which damage to a packet DECODE finds.
-/

namespace Sys2Proof

/-! ## Parts of a buffer -/

@[simp] theorem slice_zero (buf : List Byte) (b : Nat) : slice buf 0 b = buf.take b := rfl

/-- The part of a buffer up to its end. -/
theorem slice_length (buf : List Byte) (a : Nat) : slice buf a buf.length = buf.drop a :=
  List.take_of_length_le List.length_drop.le

/-- Little-endian numbers of equal length tell their bytes apart. -/
theorem eq_of_leNat_eq {as bs : List Byte} (hlen : as.length = bs.length) (h : leNat as = leNat bs) : as = bs := by
  induction as generalizing bs with
  | nil => exact (List.length_eq_zero_iff.1 hlen.symm).symm
  | cons a as ih =>
    cases bs with
    | nil => cases hlen
    | cons b bs =>
      have ha := a.isLt
      have hb := b.isLt
      simp only [leNat] at h
      rw [BitVec.eq_of_toNat_eq (show a.toNat = b.toNat by omega), ih (Nat.succ.inj hlen) (by omega)]

theorem toNat_le32 {bs : List Byte} (h : bs.length = 4) : (le32 bs).toNat = leNat bs := by
  have hlt := leNat_lt bs
  rw [h] at hlt
  exact Nat.mod_eq_of_lt hlt

theorem toNat_le64 {bs : List Byte} (h : bs.length ≤ 8) : (le64 bs).toNat = leNat bs :=
  Nat.mod_eq_of_lt ((leNat_lt bs).trans_le (Nat.pow_le_pow_right (by decide) h))

/-- Eight bytes are the wire order of the header word they stand for. -/
theorem bytes64_le64 {bs : List Byte} (h : bs.length = 8) : bytes64 (le64 bs) = bs :=
  eq_of_leNat_eq h.symm (by rw [leNat_bytes64, toNat_le64 h.le])

/-- Two trailers that are read as one word are the same four bytes. -/
theorem eq_of_le32_eq {as bs : List Byte} (ha : as.length = 4) (hb : bs.length = 4) (h : le32 as = le32 bs) :
    as = bs :=
  eq_of_leNat_eq (ha.trans hb.symm) (by rw [← toNat_le32 ha, h, toNat_le32 hb])

end Sys2Proof

namespace Sys2Proof.Machine

/-! ## The checks of DECODE (R86 to R91) -/

theorem declaredLength_lt (packet : List Byte) : Safety.declaredLength packet < 2 ^ 45 :=
  Nat.mod_lt _ (by decide)

/-- The length field of the header word is the declared length, as a number. -/
theorem toNat_len_unpack_le64 (packet : List Byte) :
    (unpack (le64 (packet.take 8))).len.toNat = Safety.declaredLength packet := by
  have hlt := declaredLength_lt packet
  rw [unpack_eq, toNat_le64 (List.length_take_le 8 packet), BitVec.toNat_ofNat]
  exact Nat.mod_eq_of_lt (hlt.trans (by decide))

/-- The header checks pass exactly for a length of at least 12 that the 45-bit field holds and the buffer has. -/
theorem decodeCheck_eq_none {total len : Nat} :
    decodeCheck total len = none ↔ 12 ≤ total ∧ total < 2 ^ 45 ∧ len = total := by
  have hmin : Const.minPacket = 12 := rfl
  have hmax : Const.lenMax = 2 ^ 45 - 1 := rfl
  unfold decodeCheck
  split_ifs <;> simp only [false_iff, true_iff] <;> omega

section
variable {packet : List Byte}

theorem decodePacket_of_short (h : packet.length < 12) : decodePacket packet = .err .bufferTooSmall := if_pos h

/-- A header check that fails is the result. -/
theorem decodePacket_of_decodeCheck {k : HostError} (hlen : 12 ≤ packet.length)
    (h : decodeCheck (Safety.declaredLength packet) packet.length = some k) : decodePacket packet = .err k := by
  have hmin : ¬packet.length < Const.minPacket := Nat.not_lt.2 hlen
  rw [decodePacket, if_neg hmin]
  simp [toNat_len_unpack_le64, h]

theorem decodePacket_of_declared_short (hlen : 12 ≤ packet.length) (h : Safety.declaredLength packet < 12) :
    decodePacket packet = .err .bufferTooSmall :=
  decodePacket_of_decodeCheck hlen (if_pos h)

theorem decodePacket_of_declared_ne (hlen : 12 ≤ packet.length) (hdecl : 12 ≤ Safety.declaredLength packet)
    (hne : Safety.declaredLength packet ≠ packet.length) : decodePacket packet = .err .lengthMismatch := by
  have hmin : ¬Safety.declaredLength packet < Const.minPacket := Nat.not_lt.2 hdecl
  have hmax : ¬Safety.declaredLength packet > Const.lenMax := Nat.not_lt.2 (Nat.le_of_lt_succ (declaredLength_lt packet))
  refine decodePacket_of_decodeCheck hlen ?_
  rw [decodeCheck, if_neg hmin, if_neg hmax, if_pos hne.symm]

/-- A declared length that is not the buffer's is one of the two size errors. -/
theorem decodePacket_sizeError (hlen : 12 ≤ packet.length) (hne : Safety.declaredLength packet ≠ packet.length) :
    decodePacket packet = .err .bufferTooSmall ∨ decodePacket packet = .err .lengthMismatch := by
  by_cases hdecl : Safety.declaredLength packet < 12
  · exact .inl (decodePacket_of_declared_short hlen hdecl)
  · exact .inr (decodePacket_of_declared_ne hlen (Nat.not_lt.1 hdecl) hne)

/-- Once the declared length is the buffer's, the trailer decides. -/
theorem decodePacket_of_declared_eq (hlen : 12 ≤ packet.length) (heq : Safety.declaredLength packet = packet.length) :
    decodePacket packet =
      if le32 (packet.drop (packet.length - 4)) ≠ crc32 (packet.take (packet.length - 4)) then .err .crcMismatch
      else .ok (packetOf (unpack (le64 (packet.take 8))) packet) := by
  have hcheck : decodeCheck packet.length packet.length = none :=
    decodeCheck_eq_none.2 ⟨hlen, heq ▸ declaredLength_lt packet, rfl⟩
  have hmin : ¬packet.length < Const.minPacket := Nat.not_lt.2 hlen
  rw [decodePacket, if_neg hmin]
  simp only [slice_zero, toNat_len_unpack_le64, heq, hcheck, receivedCrc, slice_length]

/-- Everything that a packet DECODE accepts satisfies, and the value it gives. -/
theorem decodePacket_eq_ok {q : Packet} (h : decodePacket packet = .ok q) :
    12 ≤ packet.length ∧ Safety.declaredLength packet = packet.length ∧
      le32 (packet.drop (packet.length - 4)) = crc32 (packet.take (packet.length - 4)) ∧
      q = packetOf (unpack (le64 (packet.take 8))) packet := by
  by_cases hlen : packet.length < 12
  · cases (decodePacket_of_short hlen).symm.trans h
  have hlen : 12 ≤ packet.length := Nat.not_lt.1 hlen
  by_cases heq : Safety.declaredLength packet = packet.length
  · rw [decodePacket_of_declared_eq hlen heq] at h
    split at h
    case isTrue => cases h
    case isFalse hcrc => exact ⟨hlen, heq, not_not.1 hcrc, (HostResult.ok.inj h).symm⟩
  · rcases decodePacket_sizeError hlen heq with h' | h' <;> cases h'.symm.trans h

theorem decodePacket_of_trailer_ne (hlen : 12 ≤ packet.length) (heq : Safety.declaredLength packet = packet.length)
    (hcrc : le32 (packet.drop (packet.length - 4)) ≠ crc32 (packet.take (packet.length - 4))) :
    decodePacket packet = .err .crcMismatch :=
  (decodePacket_of_declared_eq hlen heq).trans (if_pos hcrc)

theorem decodePacket_of_trailer_eq (hlen : 12 ≤ packet.length) (heq : Safety.declaredLength packet = packet.length)
    (hcrc : le32 (packet.drop (packet.length - 4)) = crc32 (packet.take (packet.length - 4))) :
    decodePacket packet = .ok (packetOf (unpack (le64 (packet.take 8))) packet) :=
  (decodePacket_of_declared_eq hlen heq).trans (if_neg (not_not.2 hcrc))

end

/-- Settles O54: each clause is the outcome of one check, and no outcome of them is PayloadTooLarge. -/
theorem decodeChecksInOrder : Obligations.DecodeChecksInOrder := by
  intro packet
  have hpayload (heq : Safety.declaredLength packet = packet.length) :
      (packetOf (unpack (le64 (packet.take 8))) packet).payload = (packet.drop 8).take (packet.length - 12) := by
    rw [packetOf, toNat_len_unpack_le64, heq]
    rfl
  refine ⟨decodePacket_of_short, decodePacket_of_declared_short, decodePacket_of_declared_ne,
    decodePacket_of_trailer_ne, fun hlen heq hcrc =>
      ⟨_, decodePacket_of_trailer_eq hlen heq hcrc, (toNat_len_unpack_le64 packet).trans heq, hpayload heq⟩, ?_⟩
  intro h
  by_cases hlen : packet.length < 12
  · cases (decodePacket_of_short hlen).symm.trans h
  have hlen : 12 ≤ packet.length := Nat.not_lt.1 hlen
  by_cases heq : Safety.declaredLength packet = packet.length
  · rw [decodePacket_of_declared_eq hlen heq] at h
    split at h <;> cases h
  · rcases decodePacket_sizeError hlen heq with h' | h' <;> cases h'.symm.trans h

/-- The first eight bytes alone declare the length. -/
theorem declaredLength_congr {as bs : List Byte} (h : as.take 8 = bs.take 8) :
    Safety.declaredLength as = Safety.declaredLength bs :=
  congrArg (leNat · / 16 % 2 ^ 45) h

/-- Settles O56: the first eight bytes still declare the old length, which is no longer the buffer's. -/
theorem paddedOrCutPacketIsRejected : Obligations.PaddedOrCutPacketIsRejected := by
  intro packet q hok
  obtain ⟨hlen, heq, -, -⟩ := decodePacket_eq_ok hok
  refine ⟨fun b => ?_, fun h12 => ?_, fun hne => ?_⟩
  · have hdecl : Safety.declaredLength (packet ++ [b]) = packet.length :=
      (declaredLength_congr (List.take_append_of_le_length (by omega))).trans heq
    have hlen' : (packet ++ [b]).length = packet.length + 1 := List.length_append
    exact decodePacket_of_declared_ne (by omega) (by omega) (by omega)
  · have hlen' : packet.dropLast.length = packet.length - 1 := List.length_dropLast
    exact decodePacket_of_short (by omega)
  · have hlen' : packet.dropLast.length = packet.length - 1 := List.length_dropLast
    have hdecl : Safety.declaredLength packet.dropLast = packet.length := by
      refine (declaredLength_congr ?_).trans heq
      rw [List.dropLast_eq_take, List.take_take, Nat.min_eq_left (by omega)]
    exact decodePacket_of_declared_ne (by omega) (by omega) (by omega)

/-! ## A flipped bit (R94 item 6) -/

theorem length_flipBit (bs : List Byte) (k i : Nat) : (Safety.flipBit bs k i).length = bs.length :=
  List.length_modify ..

/-- The bits of a little-endian number are those of its first byte, then those of the rest. -/
theorem testBit_leNat_cons (b : Byte) (bs : List Byte) (j : Nat) :
    (leNat (b :: bs)).testBit j = if j < 8 then b.getLsbD j else (leNat bs).testBit (j - 8) := by
  have hsum : leNat (b :: bs) = 2 ^ 8 * leNat bs + b.toNat := Nat.add_comm ..
  rw [hsum, Nat.testBit_two_pow_mul_add _ b.isLt]
  rfl

/-- Flipping a bit of a buffer flips it in the number that the buffer stands for. -/
theorem leNat_flipBit {bs : List Byte} {k i : Nat} (hk : k < bs.length) (hi : i < 8) :
    leNat (Safety.flipBit bs k i) = leNat bs ^^^ 2 ^ (8 * k + i) := by
  induction bs generalizing k with
  | nil => cases hk
  | cons b bs ih =>
    apply Nat.eq_of_testBit_eq
    intro j
    cases k with
    | zero =>
      have hcons : Safety.flipBit (b :: bs) 0 i = (b ^^^ BitVec.twoPow 8 i) :: bs := rfl
      rw [hcons, Nat.testBit_xor, testBit_leNat_cons, testBit_leNat_cons, Nat.testBit_two_pow]
      split
      case isTrue => simp [BitVec.getLsbD_twoPow, hi]
      case isFalse hj => simp [show i ≠ j by omega]
    | succ k =>
      have hcons : Safety.flipBit (b :: bs) (k + 1) i = b :: Safety.flipBit bs k i := rfl
      rw [hcons, Nat.testBit_xor, testBit_leNat_cons, testBit_leNat_cons, ih (Nat.lt_of_succ_lt_succ hk),
        Nat.testBit_two_pow]
      split
      case isTrue hj => simp [show 8 * (k + 1) + i ≠ j by omega]
      case isFalse hj =>
        rw [Nat.testBit_xor, Nat.testBit_two_pow]
        congr 2
        rw [eq_iff_iff]
        omega

/-- Of the bits of the header word, 4 to 48 are the length field (spec/30_encoding.md R48). -/
theorem lengthField_two_pow_eq_zero_iff (m : Nat) : 2 ^ m / 2 ^ 4 % 2 ^ 45 = 0 ↔ ¬(4 ≤ m ∧ m ≤ 48) := by
  by_cases hlow : m < 4
  · have hdiv : 2 ^ m / 2 ^ 4 = 0 := Nat.div_eq_of_lt (Nat.pow_lt_pow_right (by decide) hlow)
    simp only [hdiv, Nat.zero_mod, true_iff]
    omega
  · rw [Nat.pow_div (Nat.not_lt.1 hlow) (by decide), ← Nat.dvd_iff_mod_eq_zero, Nat.pow_dvd_pow_iff_le_right (by decide)]
    omega

/-- A flipped bit of the length field changes the declared length, and any other bit leaves it. -/
theorem declaredLength_flipBit_eq_iff {packet : List Byte} {k i : Nat} (hk : k < packet.length) (hi : i < 8) :
    Safety.declaredLength (Safety.flipBit packet k i) = Safety.declaredLength packet ↔
      ¬(4 ≤ 8 * k + i ∧ 8 * k + i ≤ 48) := by
  have htake : (Safety.flipBit packet k i).take 8 = Safety.flipBit (packet.take 8) k i := List.take_modify ..
  by_cases hheader : k < 8
  · have hk8 : k < (packet.take 8).length := by
      rw [List.length_take]
      omega
    rw [Safety.declaredLength, Safety.declaredLength, htake, leNat_flipBit hk8 hi, show 16 = 2 ^ 4 from rfl,
      Nat.xor_div_two_pow, Nat.xor_mod_two_pow, ← lengthField_two_pow_eq_zero_iff]
    exact (congrArg _ (Nat.xor_zero _).symm).to_iff.trans Nat.xor_right_inj
  · have hout : Safety.flipBit (packet.take 8) k i = packet.take 8 :=
      List.modify_eq_self ((List.length_take_le 8 packet).trans (Nat.not_lt.1 hheader))
    exact iff_of_true (declaredLength_congr (htake.trans hout)) (by omega)

/-- A single flipped bit changes the checksum (R63 item 5). -/
theorem crc32_flipBit_ne {bs : List Byte} {k i : Nat} (hk : k < bs.length) (hi : i < 8) :
    crc32 (Safety.flipBit bs k i) ≠ crc32 bs := by
  obtain ⟨before, b, after, hbs, -, hflip⟩ := List.exists_of_modify (· ^^^ BitVec.twoPow 8 i) hk
  have hne : b ^^^ BitVec.twoPow 8 i ≠ b := by
    intro h
    have hbit : (b ^^^ BitVec.twoPow 8 i).getLsbD i = b.getLsbD i := congrArg (·.getLsbD i) h
    simp [hi] at hbit
  have hflip : Safety.flipBit bs k i = before ++ (b ^^^ BitVec.twoPow 8 i) :: after := hflip
  rw [hflip, hbs]
  exact oneChangedByteChangesChecksum before after _ _ hne

/-- The trailer no longer fits: either the body changed, and its checksum with it, or the trailer did. -/
theorem trailer_flipBit_ne {packet : List Byte} {k i : Nat} (hlen : 4 ≤ packet.length) (hk : k < packet.length)
    (hi : i < 8) (hcrc : le32 (packet.drop (packet.length - 4)) = crc32 (packet.take (packet.length - 4))) :
    le32 ((Safety.flipBit packet k i).drop (packet.length - 4)) ≠
      crc32 ((Safety.flipBit packet k i).take (packet.length - 4)) := by
  have htake : (Safety.flipBit packet k i).take (packet.length - 4) =
      Safety.flipBit (packet.take (packet.length - 4)) k i := List.take_modify ..
  rw [htake]
  by_cases hbody : k < packet.length - 4
  · have hdrop : (Safety.flipBit packet k i).drop (packet.length - 4) = packet.drop (packet.length - 4) :=
      List.drop_modify_of_lt _ _ _ _ hbody
    have hkbody : k < (packet.take (packet.length - 4)).length := by
      rw [List.length_take]
      omega
    rw [hdrop, hcrc]
    exact (crc32_flipBit_ne hkbody hi).symm
  · have hdrop : (Safety.flipBit packet k i).drop (packet.length - 4) =
        Safety.flipBit (packet.drop (packet.length - 4)) (k - (packet.length - 4)) i :=
      List.drop_modify_of_ge _ _ _ _ (Nat.not_lt.1 hbody)
    have hbodySame : Safety.flipBit (packet.take (packet.length - 4)) k i = packet.take (packet.length - 4) :=
      List.modify_eq_self ((List.length_take_le _ packet).trans (Nat.not_lt.1 hbody))
    have htrailer : (packet.drop (packet.length - 4)).length = 4 := by
      rw [List.length_drop]
      omega
    rw [hdrop, hbodySame, ← hcrc]
    intro h
    have hsame := eq_of_le32_eq ((length_flipBit _ _ _).trans htrailer) htrailer h
    exact crc32_flipBit_ne (by omega) hi (congrArg crc32 hsame)

/-- Settles O55: a bit of the length field makes the declared length wrong; any other leaves it, and the trailer shows the
change. -/
theorem flippedBitIsDetected : Obligations.FlippedBitIsDetected := by
  intro packet q k i hok hk hi
  obtain ⟨hlen, heq, hcrc, -⟩ := decodePacket_eq_ok hok
  have hflen : (Safety.flipBit packet k i).length = packet.length := length_flipBit packet k i
  have hdecl := declaredLength_flipBit_eq_iff hk hi
  refine ⟨fun hout => ?_, fun hlow hhigh => ?_⟩
  · refine decodePacket_of_trailer_ne (hflen.symm ▸ hlen) ((hdecl.2 hout).trans (heq.trans hflen.symm)) ?_
    rw [hflen]
    exact trailer_flipBit_ne (by omega) hk hi hcrc
  · refine decodePacket_sizeError (hflen.symm ▸ hlen) fun h => ?_
    exact hdecl.1 (h.trans (hflen.trans heq.symm)) ⟨hlow, hhigh⟩

/-! ## ENCODE (R81 to R84) -/

/-- The effective maximum is a bound on two sides (R83). -/
theorem le_effMax (n maxPacketSize : Nat) :
    n ≤ effMax maxPacketSize ↔ n ≤ 2 ^ 45 - 1 ∧ (maxPacketSize = 0 ∨ n ≤ maxPacketSize) := by
  have hmax : Const.lenMax = 2 ^ 45 - 1 := rfl
  unfold effMax
  split <;> omega

section
variable {p : List Byte} {frag type user maxPacketSize : Nat}

/-- The argument checks of R82 as one, then the length check of R83. -/
theorem encodeCheck_some :
    encodeCheck (some p) frag type user maxPacketSize =
      if 1 < frag ∨ 15 < type ∨ 1023 < user then .err .invalidArgument
      else if effMax maxPacketSize < 8 + p.length + 4 then .err .payloadTooLarge
      else .ok p := by
  rw [ite_or, ite_or]
  rfl

/-- What the checks let through: a payload that is present, and arguments and a total length in range. -/
theorem encodeCheck_eq_ok {payload : Option (List Byte)} :
    encodeCheck payload frag type user maxPacketSize = .ok p ↔
      payload = some p ∧ frag ≤ 1 ∧ type ≤ 15 ∧ user ≤ 1023 ∧ 8 + p.length + 4 ≤ effMax maxPacketSize := by
  cases payload with
  | none => exact iff_of_false nofun nofun
  | some p' =>
    rw [encodeCheck_some]
    constructor
    · intro h
      split_ifs at h with harg hlen
      cases h
      exact ⟨rfl, by omega, by omega, by omega, by omega⟩
    · rintro ⟨⟨⟩, hfrag, htype, huser, hlen⟩
      rw [if_neg (by omega), if_neg (by omega)]

/-- An error of the checks is the result. -/
theorem encodePacket_of_encodeCheck_err {v : BitVec 4} {payload : Option (List Byte)} {k : HostError}
    (h : encodeCheck payload frag type user maxPacketSize = .err k) :
    encodePacket v payload frag type user maxPacketSize = .err k := by
  rw [encodePacket, h]

theorem encodePacket_of_encodeCheck_ok {v : BitVec 4} {payload : Option (List Byte)}
    (h : encodeCheck payload frag type user maxPacketSize = .ok p) :
    encodePacket v payload frag type user maxPacketSize =
      .ok (assemble (bytes64 (pack (encodeFields v (8 + p.length + 4) frag type user))) p) := by
  rw [encodePacket, h]

/-- A packet is only made when the checks pass. -/
theorem encodeCheck_of_encodePacket_ok {v : BitVec 4} {out : List Byte}
    (h : encodePacket v (some p) frag type user maxPacketSize = .ok out) :
    encodeCheck (some p) frag type user maxPacketSize = .ok p := by
  cases hcheck : encodeCheck (some p) frag type user maxPacketSize with
  | err k =>
    rw [encodePacket_of_encodeCheck_err hcheck] at h
    cases h
  | ok p' => rw [Option.some.inj (encodeCheck_eq_ok.1 hcheck).1]

/-- The fields of the packet are in range, so HDR_PACK_CFG takes them (R84). -/
theorem argcheck_encodeFields {payload : Option (List Byte)} (v : BitVec 4)
    (h : encodeCheck payload frag type user maxPacketSize = .ok p) :
    argcheck (encodeFields v (8 + p.length + 4) frag type user) = 0#5 := by
  obtain ⟨-, hfrag, htype, huser, hlen⟩ := encodeCheck_eq_ok.1 h
  obtain ⟨hlen, -⟩ := (le_effMax _ _).1 hlen
  have hv := v.isLt
  rw [argcheck_eq_zero]
  simp only [encodeFields, BitVec.toNat_ofNat, BitVec.toNat_setWidth]
  omega

end

@[simp] theorem length_assemble (w : DWord) (p : List Byte) : (assemble (bytes64 w) p).length = p.length + 12 := by
  simp only [assemble, List.length_append, length_bytes64, length_bytes32]
  omega

/-- Settles O53: `encodeCheck_some`, one clause for each branch. -/
theorem encodeChecksInOrder : Obligations.EncodeChecksInOrder := by
  intro v p frag type user maxPacketSize
  have hmax := le_effMax (8 + p.length + 4) maxPacketSize
  refine ⟨rfl, fun harg => ?_, fun hfrag htype huser => ⟨fun hlong => ?_, fun hlen hcap => ?_⟩⟩
  · exact encodePacket_of_encodeCheck_err (encodeCheck_some.trans (if_pos harg))
  · refine encodePacket_of_encodeCheck_err (encodeCheck_some.trans ?_)
    rw [if_neg (by omega), if_pos (by omega)]
  · exact ⟨_, encodePacket_of_encodeCheck_ok
      (encodeCheck_eq_ok.2 ⟨rfl, hfrag, htype, huser, hmax.2 ⟨by omega, by omega⟩⟩), length_assemble _ p⟩

/-! ## DECODE after ENCODE (R94 item 1) -/

section
variable (w : DWord) (p : List Byte)

@[simp] theorem take_eight_assemble : (assemble (bytes64 w) p).take 8 = bytes64 w := by
  rw [assemble, List.append_assoc]
  exact List.take_left' (length_bytes64 w)

@[simp] theorem take_assemble : (assemble (bytes64 w) p).take (p.length + 8) = bytes64 w ++ p :=
  List.take_left' (by rw [List.length_append, length_bytes64, Nat.add_comm])

@[simp] theorem drop_assemble : (assemble (bytes64 w) p).drop (p.length + 8) = bytes32 (crc32 (bytes64 w ++ p)) :=
  List.drop_left' (by rw [List.length_append, length_bytes64, Nat.add_comm])

@[simp] theorem slice_assemble : slice (assemble (bytes64 w) p) 8 (p.length + 8) = p := by
  rw [assemble, List.append_assoc, slice, List.drop_left' (length_bytes64 w)]
  exact List.take_left' (by omega)

end

/-- A packet that declares its own length is accepted, and its header word gives the fields. -/
theorem decodePacket_assemble {w : DWord} {p : List Byte} (hlen : (unpack w).len.toNat = 8 + p.length + 4) :
    decodePacket (assemble (bytes64 w) p) = .ok
      { protocolVersion := (unpack w).ver.setWidth 4, totalLength := 8 + p.length + 4,
        fragmentFlag := (unpack w).frag.setWidth 1, payloadType := (unpack w).type.setWidth 4,
        userField := (unpack w).user.setWidth 10, payload := p } := by
  have hheader : le64 ((assemble (bytes64 w) p).take 8) = w := by
    rw [take_eight_assemble, le64_bytes64]
  have hdecl : Safety.declaredLength (assemble (bytes64 w) p) = (assemble (bytes64 w) p).length := by
    rw [← toNat_len_unpack_le64, hheader, hlen, length_assemble]
    omega
  have hbody : (assemble (bytes64 w) p).length - 4 = p.length + 8 := by
    rw [length_assemble]
    rfl
  rw [decodePacket_of_trailer_eq (by rw [length_assemble]; omega) hdecl
    (by rw [hbody, drop_assemble, take_assemble, le32_bytes32]), hheader, packetOf, hlen]
  have hend : 8 + p.length + 4 - 4 = p.length + 8 := by omega
  rw [hend, slice_assemble]

/-- Settles O52: `unpack_pack` for the fields of the call, which are in range. -/
theorem encodeThenDecodeRoundTrip : Obligations.EncodeThenDecodeRoundTrip := by
  intro v p out frag type user maxPacketSize hout
  have hcheck := encodeCheck_of_encodePacket_ok hout
  obtain ⟨-, hfrag, htype, huser, hlen⟩ := encodeCheck_eq_ok.1 hcheck
  obtain ⟨hlen, -⟩ := (le_effMax _ _).1 hlen
  have hunpack := unpack_pack (argcheck_encodeFields v hcheck)
  rw [encodePacket_of_encodeCheck_ok hcheck] at hout
  cases hout
  rw [decodePacket_assemble (by rw [hunpack, encodeFields, BitVec.toNat_ofNat]; omega), hunpack]
  simp [encodeFields]
end Sys2Proof.Machine
end

section
/-!
PROOFS. The reference sequences on the block (spec/43_host_procedures.md R78 to R95): what each part of a sequence leaves,
then each procedure against the function it must compute.
-/

namespace Sys2Proof

/-! ## The two halves of the header bytes -/

/-- Eight bytes are read as two words, the low one first (R49). -/
theorem le64_append {as bs : List Byte} (ha : as.length = 4) (hb : bs.length = 4) :
    le64 (as ++ bs) = le32 bs ++ le32 as := by
  apply BitVec.eq_of_toNat_eq
  rw [Machine.toNat_append, toNat_le64 (by rw [List.length_append, ha, hb]), leNat_append, ha, toNat_le32 ha,
    toNat_le32 hb]
  omega

/-- The start of a buffer, cut in two. -/
theorem take_append_slice (buf : List Byte) {a b : Nat} (h : a ≤ b) : buf.take a ++ slice buf a b = buf.take b := by
  rw [slice, ← List.take_add, Nat.add_sub_cancel' h]

theorem le64_take_eight {packet : List Byte} (h : 8 ≤ packet.length) :
    le64 (packet.take 8) = le32 (slice packet 4 8) ++ le32 (slice packet 0 4) := by
  rw [← take_append_slice packet (show 4 ≤ 8 by decide)]
  refine le64_append (List.length_take_of_le (by omega)) ?_
  rw [slice, List.length_take_of_le]
  rw [List.length_drop]
  omega

end Sys2Proof

namespace Sys2Proof.Machine

section
variable {s : State}

/-! ## The parts of the sequences -/

theorem issue_crcInit (is : List Instr) (hr : s.wasReset = true) :
    s.issue (.crcInit :: is) = (s.answer ((s.toBlock.setCrc Const.crcInitValue).report .ok 0) .done).issue is :=
  issue_command .crcInit _ is hr (decode_encode rfl) rfl

theorem issue_crcHdr (is : List Instr) (hr : s.wasReset = true) :
    s.issue (.crcHdr :: is) =
      (s.answer ((s.toBlock.setCrc (crcBytes s.crc (bytes64 s.hdr))).report .ok 0) .done).issue is :=
  issue_command .crcHdr _ is hr (decode_encode rfl) rfl

theorem issue_hdrPackCfg (is : List Instr) (hr : s.wasReset = true) (hvalid : argcheck s.toBlock.fieldsCfg = 0#5) :
    s.issue (.hdrPackCfg :: is) =
      (s.answer ((s.toBlock.setHdr (pack s.toBlock.fieldsCfg)).report .ok 0) .done).issue is := by
  rw [issue_command .hdrPackCfg _ is hr (decode_encode rfl) (exec_hdrPackCfg s), Block.packFields_of_valid hvalid]

theorem issue_hdrUnpack (is : List Instr) (hr : s.wasReset = true) :
    s.issue (.hdrUnpack :: is) = (s.answer ((s.toBlock.setFields (unpack s.hdr)).report .ok 0) .done).issue is :=
  issue_command .hdrUnpack _ is hr (decode_encode rfl) (exec_hdrUnpack s)

/-- The bytes after a CRC command: the accumulator absorbs them, and STATUS still reports OK. -/
theorem issue_crcBytes_of_crcCommand (c : Word) (bs : List Byte) (hr : s.wasReset = true) :
    (s.answer ((s.toBlock.setCrc c).report .ok 0) .done).issue (bs.map .crcByte) =
      some (s.answer ((s.toBlock.setCrc (crcBytes c bs)).report .ok 0) .done) := by
  rw [← List.append_nil (bs.map _), issue_crcBytes (s := s.answer _ _) bs [] hr rfl rfl rfl]
  rfl

/-- CRC_RESULT reads the checksum of the bytes that the accumulator absorbed. -/
theorem busRead_crcResult {bs : List Byte} (hr : s.wasReset = true) (hc : s.crc = crcBytes Const.crcInitValue bs) :
    s.busRead .crcResult = some (crc32 bs, s.answer s.toBlock (.data (crc32 bs))) := by
  have hread : s.toBlock.readReg .crcResult = crc32 bs := congrArg (~~~·) hc
  rw [busRead_eq .crcResult hr, hread]

/-- The checksum over a packet's header word, which HDR holds, and its payload (R84, R89). -/
theorem packetChecksum (p : List Byte) (hr : s.wasReset = true) :
    ∃ t u, s.issue (.crcInit :: .crcHdr :: p.map .crcByte) = some t ∧
      t.busRead .crcResult = some (crc32 (bytes64 s.hdr ++ p), u) ∧ u.pver = s.pver := by
  have hissue : s.issue (.crcInit :: .crcHdr :: p.map .crcByte) = some (s.answer
      ((s.toBlock.setCrc (crcBytes (crcBytes Const.crcInitValue (bytes64 s.hdr)) p)).report .ok 0) .done) := by
    rw [issue_crcInit _ hr, issue_crcHdr (s := s.answer _ _) _ hr, State.answer_answer]
    exact issue_crcBytes_of_crcCommand _ p hr
  exact ⟨_, _, hissue, busRead_crcResult (s := s.answer _ _) hr (crcBytes_append ..).symm, rfl⟩

/-- The operands of HDR_PACK_CFG written. -/
theorem issue_operands (len : DWord) (frag type user : Word) (is : List Instr) (hr : s.wasReset = true) :
    s.issue (wr64Instrs .fLen len ++ wrInstr .fFrag frag :: wrInstr .fType type :: wrInstr .fUser user :: is) =
      (s.answer { s.toBlock with fLen := len, fFrag := frag, fType := type, fUser := user } .done).issue is := by
  simp only [issue_wr64_fLen, issue_wrInstr, State.answer_wasReset, State.answer_toBlock, State.answer_answer,
    Block.writeReg, hr, ne_eq, reduceCtorEq, not_false_eq_true]

/-- The operands of a packet written, and HDR_PACK_CFG: HDR holds the header word with the configured version (R84). -/
theorem issue_packHeader {len : DWord} {frag type user : Word} (hr : s.wasReset = true)
    (hvalid : argcheck ⟨s.pver.setWidth 32, len, frag, type, user⟩ = 0#5) :
    ∃ t, s.issue (wr64Instrs .fLen len ++ [wrInstr .fFrag frag, wrInstr .fType type, wrInstr .fUser user, .hdrPackCfg])
        = some t ∧
      t.wasReset = true ∧ t.pver = s.pver ∧ t.hdr = pack ⟨s.pver.setWidth 32, len, frag, type, user⟩ := by
  rw [issue_operands len frag type user _ hr, issue_hdrPackCfg (s := s.answer _ _) [] hr]
  · exact ⟨_, rfl, hr, rfl, rfl⟩
  · exact hvalid

/-- Both halves of HDR written, and HDR_UNPACK: the F_ registers hold the fields of the header word (R87). -/
theorem issue_unpackHeader (w : DWord) (hr : s.wasReset = true) :
    s.issue [wrInstr .hdrLo (loHalf w), wrInstr .hdrHi (hiHalf w), .hdrUnpack] =
      some (s.answer (((s.toBlock.setHdr w).setFields (unpack w)).report .ok 0) .done) :=
  (issue_wr64_hdr w [.hdrUnpack] hr).trans (issue_hdrUnpack (s := s.answer _ _) [] hr)

/-- The reads after HDR_UNPACK give the F_ registers and leave the block as it is. -/
theorem readFields_eq (hr : s.wasReset = true) :
    ∃ t, s.readFields = some (s.toBlock.fields, t) ∧ t.wasReset = true ∧ t.toBlock = s.toBlock := by
  simp only [State.readFields, busRead_eq, busRead64_fLen, hr, State.answer_wasReset, Option.bind_some, Option.map_some]
  exact ⟨_, rfl, hr, rfl⟩

end

/-! ## The procedures -/

/-- Settles O48: the accumulator absorbs the bytes from the initial value, and CRC_RESULT is its complement. -/
theorem computeOnBlockGivesChecksum : Obligations.ComputeOnBlockGivesChecksum := by
  intro bs s hr
  rw [State.compute, issue_crcInit _ hr, issue_crcBytes_of_crcCommand _ bs hr, Option.bind_some,
    busRead_crcResult (s := s.answer _ _) hr rfl, crc32_eq, BitVec.not_not]
  rfl

/-- Settles O49: on an error no access is issued; otherwise the operands are in range, HDR holds the header word, and the
checksum read covers it and the payload. -/
theorem encodeOnBlockMeetsProcedure : Obligations.EncodeOnBlockMeetsProcedure := by
  intro payload frag type user maxPacketSize s hr
  cases hcheck : encodeCheck payload frag type user maxPacketSize with
  | err k =>
    rw [encodePacket_of_encodeCheck_err hcheck, State.encodePacket, hcheck]
    exact ⟨s, rfl, rfl, fun _ _ => rfl⟩
  | ok p =>
    obtain ⟨s1, hpack, hr1, hpver, hhdr⟩ := issue_packHeader hr (argcheck_encodeFields s.pver hcheck)
    obtain ⟨s3, s4, hfeed, hread, hpver4⟩ := packetChecksum (s := s1.answer s1.toBlock (.data (hiHalf s1.hdr))) p hr1
    rw [encodePacket_of_encodeCheck_ok hcheck, State.encodePacket, hcheck]
    refine ⟨s4, ?_, hpver4.trans hpver, nofun⟩
    simp only [hpack, busRead64_hdr hr1, hfeed, hread, Option.bind_some, Option.map_some]
    rw [State.answer_toBlock, hhdr]
    rfl

/-- Settles O50: the F_ registers hold the header's fields, so both make the same header checks; where these pass, the
checksum read covers what stands in front of the trailer. -/
theorem decodeOnBlockMeetsProcedure : Obligations.DecodeOnBlockMeetsProcedure := by
  intro packet s hr
  by_cases hlen : packet.length < 12
  · rw [decodePacket_of_short hlen]
    exact ⟨s, if_pos hlen, rfl⟩
  have hmin : ¬packet.length < Const.minPacket := hlen
  have hlen : 12 ≤ packet.length := Nat.not_lt.1 hlen
  obtain ⟨s2, hfields, hr2, hblock⟩ := readFields_eq
    (s := s.answer (((s.toBlock.setHdr (le64 (packet.take 8))).setFields (unpack (le64 (packet.take 8)))).report .ok 0)
      .done) hr
  have hunpack := issue_unpackHeader (le64 (packet.take 8)) hr
  rw [le64_take_eight (by omega), loHalf_append, hiHalf_append, ← le64_take_eight (by omega)] at hunpack
  rw [State.answer_toBlock, Block.fields_report, Block.fields_setFields] at hfields
  have hpver2 : s2.pver = s.pver := by
    rw [hblock]
    rfl
  rw [State.decodePacket, if_neg hmin, hunpack, Option.bind_some, hfields, Option.bind_some]
  cases hcheck : decodeCheck (Safety.declaredLength packet) packet.length with
  | some k =>
    rw [decodePacket_of_decodeCheck hlen hcheck]
    simp only [toNat_len_unpack_le64, hcheck]
    exact ⟨s2, rfl, hpver2⟩
  | none =>
    obtain ⟨-, -, heq⟩ := decodeCheck_eq_none.1 hcheck
    rw [← heq] at hcheck
    obtain ⟨s3, s4, hfeed, hread, hpver⟩ := packetChecksum (slice packet 8 (packet.length - 4)) hr2
    have hbody : bytes64 s2.hdr ++ slice packet 8 (packet.length - 4) = packet.take (packet.length - 4) := by
      have hhdr : s2.hdr = le64 (packet.take 8) := congrArg Block.hdr hblock
      rw [hhdr, bytes64_le64 (List.length_take_of_le (by omega)), take_append_slice packet (by omega)]
    rw [decodePacket_of_declared_eq hlen heq.symm]
    simp only [toNat_len_unpack_le64, ← heq, hcheck, hfeed, hread, Option.bind_some, Option.map_some, receivedCrc,
      slice_length, hbody]
    refine ⟨s4, ?_, hpver.trans hpver2⟩
    split <;> rfl

/-- Settles O51: by O48 to O50 each result is that of a function of the arguments, and of CFG.PVER for ENCODE. -/
theorem hostProceduresReadOnlyPver : Obligations.HostProceduresReadOnlyPver := by
  intro s s' hr hr'
  refine ⟨fun bs => ?_, fun packet => ?_, fun hpver payload frag type user maxPacketSize => ?_⟩
  · rw [computeOnBlockGivesChecksum bs s hr, computeOnBlockGivesChecksum bs s' hr']
    rfl
  · obtain ⟨t, ht, -⟩ := decodeOnBlockMeetsProcedure packet s hr
    obtain ⟨t', ht', -⟩ := decodeOnBlockMeetsProcedure packet s' hr'
    rw [ht, ht']
    rfl
  · obtain ⟨t, ht, -⟩ := encodeOnBlockMeetsProcedure payload frag type user maxPacketSize s hr
    obtain ⟨t', ht', -⟩ := encodeOnBlockMeetsProcedure payload frag type user maxPacketSize s' hr'
    rw [ht, ht', hpver]
    rfl

/-! ## SET_PROTOCOL_VERSION (R93) -/

section
variable {s : State}

/-- SET_PVER as an access of a host, for a version that its immediate holds: CFG set where the version fits, a report
otherwise (R73). -/
theorem issue_setPver {v : Nat} (hr : s.wasReset = true) (himm : v ≤ 0xFFFFFF) :
    s.issue [.setPver (BitVec.ofNat 24 v)] = some (s.answer
      (if v ≤ 15 then (s.toBlock.setPver (BitVec.ofNat 4 v)).report .ok 0
        else s.toBlock.report .invalidArgument 0b00001#5) .done) := by
  have htoNat : (BitVec.ofNat 24 v).toNat = v := Nat.mod_eq_of_lt (by omega)
  have hexec := exec_setPver (BitVec.ofNat 24 v) s
  rw [htoNat] at hexec
  exact issue_command (.setPver (BitVec.ofNat 24 v)) _ [] hr (decode_encode rfl) hexec

theorem setProtocolVersion_of_fits {v : Nat} (hr : s.wasReset = true) (hv : v ≤ 15) :
    s.setProtocolVersion v =
      some (.ok (), s.answer ((s.toBlock.setPver (BitVec.ofNat 4 v)).report .ok 0) .done) := by
  rw [State.setProtocolVersion, if_neg (Nat.not_lt.2 hv), issue_setPver hr (by omega), if_pos hv]
  rfl

/-- The direct way: STATUS.LAST after SET_PVER gives the result, and the read changes no register. -/
theorem setProtocolVersionDirect_of_issue {v : Nat} {b : Block} (hr : s.wasReset = true)
    (hissue : s.issue [.setPver (BitVec.ofNat 24 v)] = some (s.answer b .done)) :
    s.setProtocolVersionDirect v =
      some (if b.last = 1#2 then .err .invalidArgument else .ok (), s.answer b (.data b.statusWord)) := by
  obtain ⟨hlast, -⟩ := statusWordLayout b
  rw [State.setProtocolVersionDirect, hissue, Option.bind_some, busRead_eq (s := s.answer b _) .status hr,
    Option.map_some, ← hlast]
  rfl

end

/-- Settles O57: a version that fits goes through SET_PVER both ways; any other leaves CFG alone, whether the host or the
block refuses it. -/
theorem setProtocolVersionBothWays : Obligations.SetProtocolVersionBothWays := by
  intro v s hr
  refine ⟨fun hv => ⟨_, setProtocolVersion_of_fits hr hv, rfl⟩, fun hv => if_pos hv, fun himm => ?_⟩
  have hdirect := setProtocolVersionDirect_of_issue hr (issue_setPver hr himm)
  by_cases hv : v ≤ 15
  · rw [if_pos hv] at hdirect
    exact ⟨_, _, _, setProtocolVersion_of_fits hr hv, hdirect, rfl⟩
  · rw [if_neg hv] at hdirect
    exact ⟨_, _, _, if_pos (Nat.lt_of_not_le hv), hdirect, rfl⟩
end Sys2Proof.Machine
end

section
/-!
PROOFS. The abnormal outcomes (spec/60_exceptions.md): a command ends in one report (R101) and has moved nothing else
when that is an error (R102), and no instruction stops the block (R96).
-/

namespace Sys2Proof.Machine

/-- How a command can leave a block `b` (R97, R101): it ends in one report, and an error report is made on `b` itself. -/
inductive CommandReport (b : Block) : Block → Prop
  | ok (b' : Block) : CommandReport b (b'.report .ok 0)
  | invalidArgument (m : BitVec 5) (hm : m ≠ 0#5) : CommandReport b (b.report .invalidArgument m)
  | illegalCommand : CommandReport b (b.report .illegalCommand 0)

/-- A pack command reports OK or the mask of its failed checks (R66, R67). -/
theorem CommandReport.of_packFields (f : Fields) (b : Block) : CommandReport b (b.packFields f) := by
  by_cases h : argcheck f = 0#5
  · rw [Block.packFields_of_valid h]
    exact .ok _
  · rw [Block.packFields_of_invalid h]
    exact .invalidArgument _ h

/-- A command word is answered OK whatever it reports, and it always reports (R97). -/
theorem exec_decodeCommand_reports (cmd : Word) (s : State) :
    ∃ b, exec (decodeCommand cmd) s = .next (s.answer b .done) ∧ CommandReport s.toBlock b := by
  cases h : decodeCommand cmd with
  | hdrPack => exact ⟨_, exec_hdrPack s, .of_packFields _ _⟩
  | hdrPackCfg => exact ⟨_, exec_hdrPackCfg s, .of_packFields _ _⟩
  | setPver v =>
    refine ⟨_, exec_setPver v s, ?_⟩
    split
    case isTrue => exact .ok _
    case isFalse => exact .invalidArgument _ (by decide)
  | illegal w => exact ⟨_, exec_illegal w s, .illegalCommand⟩
  | rd off size => exact absurd h (decodeCommand_ne_rd cmd off size)
  | wr off size v => exact absurd h (decodeCommand_ne_wr cmd off size v)
  | _ => exact ⟨_, rfl, .ok _⟩

/-- Settles O19: the report OK leaves LAST = 0, and the two error reports write STATUS alone. -/
theorem failedCommandChangesOnlyStatus : Obligations.FailedCommandChangesOnlyStatus := by
  intro cmd s t hexec hlast
  obtain ⟨b, hb, hreport⟩ := exec_decodeCommand_reports cmd s
  rw [hb] at hexec
  cases hexec
  cases hreport with
  | ok b' => exact absurd rfl hlast
  | invalidArgument m hm => exact ⟨rfl, .inl ⟨rfl, hm, rfl, rfl⟩⟩
  | illegalCommand => exact ⟨rfl, .inr ⟨rfl, rfl, rfl, rfl⟩⟩

/-- Settles O40: whatever an instruction does, it answers the access, and an answer keeps the port and the power. -/
theorem everyInstructionCompletes : Obligations.EveryInstructionCompletes := by
  intro i s
  obtain ⟨b, r, h⟩ := exec_answers i s
  exact ⟨s.answer b r, h, rfl, rfl, rfl, rfl⟩

end Sys2Proof.Machine
end

section
/-!
PROOFS. Reset and loss of power (spec/70_reset_and_hazards.md): what a reset leaves and what the registers then read,
the refusal of an access that comes before it, and STATUS at reset.
-/

namespace Sys2Proof.Machine

/-- Settles O35: the reset event leaves `Block.reset`, and the table is every register but CMD, each with what it reads
there. -/
theorem resetSetsEveryElement : Obligations.ResetSetsEveryElement := by
  intro s held rest hp
  refine ⟨_, step_resetEvent s held rest hp, rfl, fun p hread => ?_⟩
  have hmap : p ∈ allRegs.tail.map fun r => (r.offset, Block.reset.readReg r) := hread
  obtain ⟨r, -, rfl⟩ := List.mem_map.1 hmap
  exact exec_rd_offset r { s with port := rest }.applyReset

/-- Settles O36: the first event decides the step, and a reset with nothing behind it leaves `State.reset` but for the
count of power losses. -/
theorem accessBeforeResetIsRefused : Obligations.AccessBeforeResetIsRefused :=
  ⟨step_tooEarly, rfl, rfl, fun s held hp => step_resetEvent s held [] hp⟩

/-- Settles O37: a loss of power clears `wasReset` and keeps the events behind it, so the next step finds its event at
the front of the port. -/
theorem powerLossNeedsReset : Obligations.PowerLossNeedsReset := by
  intro s rest hp
  refine ⟨_, step_powerLoss s rest hp, rfl, fun a tail hrest => ?_, fun held tail hrest => ?_⟩
  · exact step_tooEarly _ a tail hrest rfl
  · exact ⟨_, step_resetEvent _ held tail hrest, rfl, rfl⟩

/-- Settles O42: it is the base case of the invariant that every step keeps. -/
theorem statusInvariantAtReset : Obligations.StatusInvariantAtReset :=
  ⟨fun _ => statusConsistent_reset, rfl⟩

end Sys2Proof.Machine
end
